-- ==== Sys2Proof/Config.lean ====
section
/-! DEFINITION. The named constants of the engine (00 R6, 10 R31), the reals an operand can be, the configuration an OPEN fixes (10 R30), the arguments of OPEN, and the OPEN parameters of an implementation. -/

namespace Sys2Proof

/-- The four oscillator functions, which are also the values of the configuration field WAVE (10 R30, 30 R89). -/
inductive Wave where
  | sine
  | triangle
  | square
  | sawtooth
  deriving DecidableEq, Repr

namespace Config

/-- NOTES, entries of the Note table (00 R6). -/
abbrev notes : Nat := 128

/-- REF_INDEX, the note number that sounds at the reference frequency (00 R6). -/
def refIndex : Int := 69

/-- SEMITONES, notes per octave (00 R6). -/
abbrev semitones : Nat := 12

/-- FLOOR, the audibility floor 0.0001 (00 R6). -/
def floor : Rat := mkRat 1 10000

/-- ST_NOTE_ON (00 R6). -/
def stNoteOn : BitVec 8 := 144#8

/-- ST_NOTE_OFF (00 R6). -/
def stNoteOff : BitVec 8 := 128#8

/-- RECORD_BYTES (00 R6). -/
def recordBytes : Nat := 3

/-- The document's default of `attack`, 0.8 seconds. -/
def attack : Rat := mkRat 4 5

/-- The document's default of `decay`, 5.0 seconds. -/
def decay : Rat := 5

/-- The document's default of `sustain`, 0.0. -/
def sustain : Rat := 0

/-- The document's default of `release`, 0.2 seconds. -/
def release : Rat := mkRat 1 5

/-- The document's default of `reference_frequency`, 440 hertz. -/
def referenceFrequency : Rat := 440

/-- The document's default of `master_volume`, 0.1. -/
def masterVolume : Rat := mkRat 1 10

/-- The default of WAVE (30 R89, D9). -/
def wave : Wave := .triangle

end Config

/-- A real number as an operand or a configuration field is (00 R8), written as plain data: a rational, a real known
by its name only, or a sum, product or inverse of these. DESIGN CHOICE, safe (log 2): nothing says which real a name
stands for (`Config.realNames`), so what is proved for every `Scalar` is proved for every real. -/
inductive Scalar where
  | rat (q : Rat)
  | named (n : Nat)
  | add (x y : Scalar)
  | mul (x y : Scalar)
  | inv (x : Scalar)
  deriving DecidableEq, Repr

/-- The configuration of a stream (10 R30). -/
structure Cfg where
  attack : Scalar
  decay : Scalar
  sustain : Scalar
  release : Scalar
  referenceFrequency : Scalar
  masterVolume : Scalar
  wave : Wave
  /-- `R`, frames per second. -/
  rate : Nat
  /-- `C`, channels per frame. -/
  channels : Nat
  deriving DecidableEq, Repr

/-- The configuration handed over with OPEN: `R` and `C` must be given, every other field may be left out (70 R200, 30 R94). -/
structure OpenArgs where
  rate : Nat
  channels : Nat
  attack : Option Scalar := none
  decay : Option Scalar := none
  sustain : Option Scalar := none
  release : Option Scalar := none
  referenceFrequency : Option Scalar := none
  masterVolume : Option Scalar := none
  wave : Option Wave := none
  deriving DecidableEq, Repr

/-- The parameters the spec leaves OPEN to an implementation (00 R6): `tickW` is TICK_W, the width of the
sample counter in bits, `qdepth` is QDEPTH, the capacity of the event queue; `none` is "no bound".
DESIGN CHOICE (log 12): they stand in State, and no operation writes them. -/
structure Impl where
  tickW : Option Nat
  qdepth : Option Nat
  deriving DecidableEq, Repr

end Sys2Proof
end

