-- ==== Sys2Proof/Word.lean ====
section
/-! DEFINITION. The plain data the engine works on: bytes, event records, note indices, phases, and the exact numbers an amplitude is made of. -/

namespace Sys2Proof

/-- An unsigned integer 0 to 255 (00 R8). -/
abbrev Byte := BitVec 8

/-- One event record of the format EV3: the three bytes in the order they are delivered (30 R80). -/
structure Record where
  status : Byte
  noteIndex : Byte
  velocity : Byte
  deriving DecidableEq, Repr

/-- An index of the Note table, 0 to 127 (10 R21). -/
abbrev NoteIx := Fin Config.notes

/-- A phase angle. Phases that the engine itself computes (45 R152) are `turns q m`: the angle of
`q * 2^(m/12)` whole turns, that is `2π * q * 2^(m/12)` radians, exactly.
`radians x` is the angle of `x` radians, for an oscillator that is given one (42 R120).
DESIGN CHOICE, safe (log 3): one real phase can be written in several ways. -/
inductive Phase where
  | turns (q : Scalar) (m : Fin Config.semitones)
  | radians (x : Scalar)
  deriving DecidableEq, Repr

/-- The numbers whose combinations the model's amplitudes are: `root m` is the real `2^(m/12)`
(so `root 0` is 1), and `wave w x` is the value of the oscillator `w` at the phase `x`. -/
inductive Base where
  | root (m : Fin Config.semitones)
  | wave (w : Wave) (x : Phase)
  deriving DecidableEq, Repr

/-- An exact real number: a finite sum of multiples of bases, sorted, with no zero multiple
(`ExactNum.wf`). The rules of the spec are in exact reals (00 R8, 45 R156); DESIGN CHOICE (log 1): this is the
number system NUM of the model. `ExactNum.toReal` says which real it stands for. -/
structure ExactNum where
  terms : List (Base × Scalar)
  deriving DecidableEq, Repr

end Sys2Proof
end

