-- ==== Sys2Proof/Machine/RootFloor.lean ====
section
/-! DEFINITION. The exact comparison of a rational multiple of 2^(m/12) with the integers, on which every waveform decision of a rational configuration rests, and the proof that the floor it finds is the floor. -/

namespace Sys2Proof

/-- The greatest number below `acc + 2^bits` that passes the test `p` (one that fails for every number
above one it fails for), found bit by bit from `acc`. -/
def searchBits (p : Nat → Bool) : Nat → Nat → Nat
  | 0, acc => acc
  | b + 1, acc => if p (acc + 2 ^ b) then searchBits p b (acc + 2 ^ b) else searchBits p b acc

/-- `k <= (n / d) * 2^(m/12)`, compared exactly: both sides to the twelfth power. -/
def rootLe (n d m k : Nat) : Bool := decide ((k * d) ^ Config.semitones ≤ n ^ Config.semitones * 2 ^ m)

/-- `k = (n / d) * 2^(m/12)`, compared exactly. -/
def rootEq (n d m k : Nat) : Bool := decide ((k * d) ^ Config.semitones = n ^ Config.semitones * 2 ^ m)

/-- `floor ((n / d) * 2^(m/12))`. -/
def rootFloorNat (n d m : Nat) : Nat :=
  searchBits (rootLe n d m) (Nat.log2 (2 * (n / d) + 2) + 1) 0

/-- Whether `q * 2^(m/12)` is an integer. -/
def rootIsInt (q : Rat) (m : Fin Config.semitones) : Bool :=
  rootEq q.num.natAbs q.den m.val (rootFloorNat q.num.natAbs q.den m.val)

/-- `floor (q * 2^(m/12))`. -/
def rootFloor (q : Rat) (m : Fin Config.semitones) : Int :=
  if 0 ≤ q.num then (rootFloorNat q.num.natAbs q.den m.val : Int)
  else if rootIsInt q m then -(rootFloorNat q.num.natAbs q.den m.val : Int)
  else -(rootFloorNat q.num.natAbs q.den m.val : Int) - 1

/-- The integer power of two `2^k`. -/
def powTwo (k : Int) : Rat :=
  if 0 ≤ k then (2 : Rat) ^ k.toNat else 1 / (2 : Rat) ^ (-k).toNat

/-- The real `2^(m/12)` (43 R130). -/
noncomputable def rootReal (m : Nat) : ℝ := (2 : ℝ) ^ ((m : ℝ) / (Config.semitones : ℝ))

/-! ### The floor found is the floor -/

theorem searchBits_spec (p : Nat → Bool) (bits : Nat) :
    ∀ acc, p acc = true → p (acc + 2 ^ bits) = false →
      p (searchBits p bits acc) = true ∧ p (searchBits p bits acc + 1) = false := by
  induction bits with
  | zero => intro acc h0 h1; exact ⟨h0, by simpa [searchBits] using h1⟩
  | succ b ih =>
    intro acc h0 h1
    simp only [searchBits]
    split
    · rename_i h
      exact ih _ h (by rw [← h1]; congr 1; ring)
    · rename_i h
      exact ih _ h0 (by simpa using h)

theorem rootReal_pos (m : Nat) : 0 < rootReal m := Real.rpow_pos_of_pos two_pos _

@[simp] theorem rootReal_zero : rootReal 0 = 1 := by simp [rootReal]

/-- The real `2^(m/12)` to the twelfth power. -/
theorem rootReal_pow (m : Nat) : rootReal m ^ Config.semitones = 2 ^ m := by
  rw [rootReal, ← Real.rpow_natCast, ← Real.rpow_mul two_pos.le, div_mul_cancel₀, Real.rpow_natCast]
  norm_num

theorem rootLe_iff (n d m k : Nat) (hd : 0 < d) :
    rootLe n d m k = true ↔ (k : ℝ) ≤ (n : ℝ) / d * rootReal m := by
  have hd' : (0 : ℝ) < d := by exact_mod_cast hd
  have hr : (0 : ℝ) ≤ rootReal m := (rootReal_pos m).le
  rw [rootLe, decide_eq_true_iff, div_mul_eq_mul_div, le_div_iff₀ hd',
    ← pow_le_pow_iff_left₀ (a := (k : ℝ) * d) (by positivity) (by have := rootReal_pos m; positivity) (show Config.semitones ≠ 0 by norm_num),
    mul_pow (n : ℝ), rootReal_pow]
  exact_mod_cast Iff.rfl

theorem rootEq_iff (n d m k : Nat) (hd : 0 < d) :
    rootEq n d m k = true ↔ (k : ℝ) = (n : ℝ) / d * rootReal m := by
  have hd' : (0 : ℝ) < d := by exact_mod_cast hd
  rw [rootEq, decide_eq_true_iff, div_mul_eq_mul_div, eq_div_iff hd'.ne',
    ← pow_left_inj₀ (a := (k : ℝ) * d) (by positivity) (by have := rootReal_pos m; positivity) (show Config.semitones ≠ 0 by norm_num),
    mul_pow (n : ℝ), rootReal_pow]
  exact_mod_cast Iff.rfl

theorem rootLe_bound (n d m : Nat) (hd : 0 < d) (hm : m < Config.semitones) :
    rootLe n d m (2 ^ (Nat.log2 (2 * (n / d) + 2) + 1)) = false := by
  have h1 : 2 * (n / d) + 2 < 2 ^ (Nat.log2 (2 * (n / d) + 2) + 1) := Nat.lt_log2_self
  have h2 : n < (n / d + 1) * d := by
    have := Nat.div_add_mod n d
    have := Nat.mod_lt n hd
    nlinarith
  have h3 : 2 * n < 2 ^ (Nat.log2 (2 * (n / d) + 2) + 1) * d := by nlinarith
  simp only [rootLe, decide_eq_false_iff_not, not_le]
  calc n ^ Config.semitones * 2 ^ m ≤ n ^ Config.semitones * 2 ^ Config.semitones :=
        Nat.mul_le_mul_left _ (Nat.pow_le_pow_right (by norm_num) hm.le)
    _ = (2 * n) ^ Config.semitones := by rw [mul_pow, mul_comm]
    _ < _ := Nat.pow_lt_pow_left h3 (by norm_num)

/-- `rootFloorNat` is the floor: the greatest natural not above `(n / d) * 2^(m/12)`. -/
theorem rootFloorNat_spec (n d m : Nat) (hd : 0 < d) (hm : m < Config.semitones) :
    (rootFloorNat n d m : ℝ) ≤ (n : ℝ) / d * rootReal m
      ∧ (n : ℝ) / d * rootReal m < (rootFloorNat n d m : ℝ) + 1 := by
  have h := searchBits_spec (rootLe n d m) _ 0 (by simp [rootLe])
    (by rw [Nat.zero_add]; exact rootLe_bound n d m hd hm)
  refine ⟨(rootLe_iff n d m _ hd).1 h.1, ?_⟩
  have h2 : ¬ (((rootFloorNat n d m + 1 : Nat) : ℝ) ≤ (n : ℝ) / d * rootReal m) := by
    rw [← rootLe_iff n d m _ hd]
    simpa [rootFloorNat] using h.2
  push_cast at h2
  exact not_le.1 h2

theorem rat_cast_eq_natAbs_div (q : Rat) (hq : 0 ≤ q.num) :
    (q : ℝ) = (q.num.natAbs : ℝ) / (q.den : ℝ) := by
  have h : ((q.num.natAbs : ℤ) : ℝ) = (q.num : ℝ) := by rw [Int.natAbs_of_nonneg hq]
  rw [Rat.cast_def, ← h]
  rfl

theorem rat_cast_eq_neg_natAbs_div (q : Rat) (hq : q.num < 0) :
    (q : ℝ) = -((q.num.natAbs : ℝ) / (q.den : ℝ)) := by
  have h : ((q.num.natAbs : ℤ) : ℝ) = -(q.num : ℝ) := by
    rw [Int.ofNat_natAbs_of_nonpos hq.le]; push_cast; ring
  rw [Int.cast_natCast] at h
  rw [Rat.cast_def, h]
  ring

/-- `rootFloor q m` is the floor of `q * 2^(m/12)`. -/
theorem rootFloor_eq_floor (q : Rat) (m : Fin Config.semitones) :
    rootFloor q m = ⌊(q : ℝ) * rootReal m.val⌋ := by
  have hs := rootFloorNat_spec q.num.natAbs q.den m.val q.den_pos m.isLt
  symm
  rw [Int.floor_eq_iff]
  unfold rootFloor
  split
  · rename_i hq
    rw [rat_cast_eq_natAbs_div q hq]
    simpa using hs
  · rename_i hq
    rw [rat_cast_eq_neg_natAbs_div q (by omega)]
    split
    · rename_i he
      rw [rootIsInt, rootEq_iff _ _ _ _ q.den_pos] at he
      push_cast
      constructor <;> linarith [hs.1, hs.2]
    · rename_i he
      rw [rootIsInt, rootEq_iff _ _ _ _ q.den_pos] at he
      have hlt := lt_of_le_of_ne hs.1 he
      push_cast
      constructor <;> linarith [hs.1, hs.2]

/-- The integer power of two. -/
theorem powTwo_cast (k : Int) : ((powTwo k : Rat) : ℝ) = (2 : ℝ) ^ (k : ℝ) := by
  unfold powTwo
  split
  · rename_i h
    obtain ⟨n, rfl⟩ := Int.eq_ofNat_of_zero_le h
    simp
  · rename_i h
    obtain ⟨n, hn⟩ := Int.eq_ofNat_of_zero_le (show 0 ≤ -k by omega)
    have hk : k = -(n : Int) := by omega
    subst hk
    simp [Real.rpow_neg]

end Sys2Proof
end

