-- ==== Sys2Proof/Machine/Scalar.lean ====
section
/-! DEFINITION. The reals of operands and of the configuration: which real a `Scalar` is, its arithmetic, and its comparisons. Where all parts are rational the arithmetic and the comparisons are computed. Where a real is known by its name only, the comparisons are answered by a constant of Config of which nothing is known but that its answers are true. -/

namespace Sys2Proof

/-- The real a scalar is, when `v n` is the real of the name `n`. -/
noncomputable def Scalar.toRealAt (v : Nat → ℝ) : Scalar → ℝ
  | .rat q => (q : ℝ)
  | .named n => v n
  | .add x y => x.toRealAt v + y.toRealAt v
  | .mul x y => x.toRealAt v * y.toRealAt v
  | .inv x => (x.toRealAt v)⁻¹

/-- Reals for all names, and the true floor of every scalar made of them, times each 2^(m/12). Any real can be given any
name, with one such structure for each way to do it. -/
structure RealNames where
  val : Nat → ℝ
  floorTimes : Scalar → Fin Config.semitones → Int
  floorTimes_eq : ∀ (x : Scalar) (m : Fin Config.semitones), floorTimes x m = ⌊x.toRealAt val * rootReal m.val⌋

/-- The rational a scalar is when every name is 0. -/
def Scalar.ratAtZero : Scalar → Rat
  | .rat q => q
  | .named _ => 0
  | .add x y => x.ratAtZero + y.ratAtZero
  | .mul x y => x.ratAtZero * y.ratAtZero
  | .inv x => (x.ratAtZero)⁻¹

theorem Scalar.toRealAt_zero (x : Scalar) : x.toRealAt (fun _ => 0) = (x.ratAtZero : ℝ) := by
  induction x <;> simp_all [Scalar.toRealAt, Scalar.ratAtZero]

/-- The names that are all 0: it shows only that `RealNames` has an element, which Lean asks for. -/
def RealNames.zeros : RealNames where
  val := fun _ => 0
  floorTimes := fun x m => rootFloor x.ratAtZero m
  floorTimes_eq := fun x m => by rw [Scalar.toRealAt_zero, rootFloor_eq_floor]

/-- FREE VALUE (log 2): some reals for the names, chosen nowhere. The type has an element, and no more is known. -/
opaque Config.someRealNames [Inhabited RealNames] : RealNames

/-- The reals the names of the configuration and of the operands stand for (log 2). -/
def Config.realNames : RealNames := @Config.someRealNames ⟨RealNames.zeros⟩

/-- The real a scalar is. -/
noncomputable def Scalar.toReal (x : Scalar) : ℝ := x.toRealAt Config.realNames.val

/-! ### Arithmetic -/

/-- `x + y`. -/
def Scalar.plus : Scalar → Scalar → Scalar
  | .rat p, .rat q => .rat (p + q)
  | x, y => .add x y

/-- `x * y`. -/
def Scalar.times : Scalar → Scalar → Scalar
  | .rat p, .rat q => .rat (p * q)
  | x, y => .mul x y

/-- `1 / x`. -/
def Scalar.recip : Scalar → Scalar
  | .rat q => .rat q⁻¹
  | x => .inv x

/-- `x - y`. -/
def Scalar.minus (x y : Scalar) : Scalar := x.plus (y.times (.rat (-1)))

/-- `x / y`. -/
def Scalar.over (x y : Scalar) : Scalar := x.times y.recip

/-! ### Comparisons -/

/-- `floor (x * 2^(m/12))`. -/
def Scalar.floorTimes : Scalar → Fin Config.semitones → Int
  | .rat q, m => rootFloor q m
  | x, m => Config.realNames.floorTimes x m

/-- Whether `x * 2^(m/12)` is an integer. -/
def Scalar.timesIsInt (x : Scalar) (m : Fin Config.semitones) : Bool :=
  decide (x.floorTimes m + (x.times (.rat (-1))).floorTimes m = 0)

/-- `x <= y`. -/
def Scalar.le : Scalar → Scalar → Bool
  | .rat p, .rat q => decide (p ≤ q)
  | x, y => decide (0 ≤ (y.minus x).floorTimes 0)

/-- `x < y`. -/
def Scalar.lt (x y : Scalar) : Bool := !y.le x

/-! ### What they are -/

@[simp] theorem Scalar.toReal_rat (q : Rat) : (Scalar.rat q).toReal = (q : ℝ) := rfl

@[simp] theorem Scalar.toReal_add (x y : Scalar) : (Scalar.add x y).toReal = x.toReal + y.toReal := rfl

@[simp] theorem Scalar.toReal_mul (x y : Scalar) : (Scalar.mul x y).toReal = x.toReal * y.toReal := rfl

@[simp] theorem Scalar.toReal_inv (x : Scalar) : (Scalar.inv x).toReal = x.toReal⁻¹ := rfl

end Sys2Proof
end

