-- ==== Sys2Proof/Syntax.lean ====
section
/-! DEFINITION. The operations of the engine: one constructor for each row of spec/opcode_table.json, in the table's order. -/

namespace Sys2Proof

/-- An operation of the engine (00 R5). OPEN and CLOSE are `openStream` and `closeStream`. -/
inductive Instr where
  /-- NOTE_ON, 44 R137. -/
  | noteOn (noteIndex velocity : Byte)
  /-- NOTE_OFF, 44 R138. -/
  | noteOff (noteIndex velocity : Byte)
  /-- EV_OTHER, 44 R139: the bytes of an unrecognised record. -/
  | evOther (status noteIndex velocity : Byte)
  /-- SINE, 42 R121. -/
  | sine (x : Phase)
  /-- TRIANGLE, 42 R122. -/
  | triangle (x : Phase)
  /-- SQUARE, 42 R123. -/
  | square (x : Phase)
  /-- SAWTOOTH, 42 R124. -/
  | sawtooth (x : Phase)
  /-- OPEN, 70 R200. -/
  | openStream (args : OpenArgs)
  /-- PUSH, 20 R56. -/
  | push (rec : Record)
  /-- FILL, 45 R150: `frames` is `P`. -/
  | fill (frames : Nat)
  /-- CLOSE, 70 R202. -/
  | closeStream
  /-- PRESS, 40 R101. -/
  | press (i : Byte) (t : Nat)
  /-- RELEASE, 40 R102. -/
  | release (i : Byte) (t : Nat)
  /-- DEACTIVATE, 40 R103. -/
  | deactivate (i : Byte)
  /-- ADS, 41 R111: `l` is the lifetime in seconds. -/
  | ads (l : Scalar)
  /-- ENV, 41 R112. -/
  | env (i : NoteIx) (t : Nat)
  /-- FREQ, 43 R130. -/
  | freq (i : NoteIx)
  /-- OSC, 42 R125. -/
  | osc (x : Phase)
  /-- INGEST, 44 R135. -/
  | ingest
  /-- FRAME, 45 R152: `k` is the frame's index within OUT. -/
  | frame (k : Nat)
  deriving DecidableEq, Repr

end Sys2Proof
end

