-- ==== Sys2Proof/WellFormed.lean ====
section
/-! DEFINITION. Which operations are well formed: the operand ranges that the operand's type does not already give. -/

namespace Sys2Proof

/-- The operand checks: an EV_OTHER record has neither of the two recognised status bytes (30 R88), and the
lifetime handed to ADS is not negative (41 R111). A note index of PRESS, RELEASE and DEACTIVATE is any byte
(the range test is the operation's own), and a configuration handed to OPEN is tested by OPEN itself. -/
def Instr.wf : Instr → Bool
  | .evOther status _ _ => status != Config.stNoteOn && status != Config.stNoteOff
  | .ads l => (Scalar.rat 0).le l
  | .noteOn _ _ => true
  | .noteOff _ _ => true
  | .sine _ => true
  | .triangle _ => true
  | .square _ => true
  | .sawtooth _ => true
  | .openStream _ => true
  | .push _ => true
  | .fill _ => true
  | .closeStream => true
  | .press _ _ => true
  | .release _ _ => true
  | .deactivate _ => true
  | .env _ _ => true
  | .freq _ => true
  | .osc _ => true
  | .ingest => true
  | .frame _ => true

end Sys2Proof
end

