-- ==== Sys2Proof/Decode.lean ====
section
/-! DEFINITION. The decoder of event records (30 R85 to R88), the 2-bit numbering of WAVE (30 R89), and the encoder written from the same tables. -/

namespace Sys2Proof

/-- What one record decodes to: the three rows of format EV3. -/
inductive Event where
  | noteOn (noteIndex velocity : Byte)
  | noteOff (noteIndex velocity : Byte)
  | other (status noteIndex velocity : Byte)
  deriving DecidableEq, Repr

/-- Decoding one record, the status byte compared whole and in the order of 30 R85. -/
def decodeEvent (r : Record) : Event :=
  if r.status = Config.stNoteOn then .noteOn r.noteIndex r.velocity
  else if r.status = Config.stNoteOff then .noteOff r.noteIndex r.velocity
  else .other r.status r.noteIndex r.velocity

/-- The operation an event is. -/
def Event.toInstr : Event → Instr
  | .noteOn n v => .noteOn n v
  | .noteOff n v => .noteOff n v
  | .other s n v => .evOther s n v

/-- The operation a record is (30 R85): total, no record is illegal (30 R91). -/
def decodeRecord (r : Record) : Instr := (decodeEvent r).toInstr

/-- Why a string of bytes is not a record. -/
inductive DecodeError where
  /-- Fewer than three bytes are left: a partial record cannot be expressed (20 R60). -/
  | partialRecord (bytes : Nat)
  deriving DecidableEq, Repr

/-- Decoding any bytes: the first three are one record, the rest is handed back. -/
def decode : List Byte → Except DecodeError (Instr × List Byte)
  | s :: n :: v :: rest => .ok (decodeRecord ⟨s, n, v⟩, rest)
  | [] => .error (.partialRecord 0)
  | [_] => .error (.partialRecord 1)
  | [_, _] => .error (.partialRecord 2)

/-- The record of an operation that has one; HOST, SEQ and WAVE rows have none (30 R81, R89, R90). -/
def encode : Instr → Option Record
  | .noteOn n v => some ⟨Config.stNoteOn, n, v⟩
  | .noteOff n v => some ⟨Config.stNoteOff, n, v⟩
  | .evOther s n v => some ⟨s, n, v⟩
  | .sine _ => none
  | .triangle _ => none
  | .square _ => none
  | .sawtooth _ => none
  | .openStream _ => none
  | .push _ => none
  | .fill _ => none
  | .closeStream => none
  | .press _ _ => none
  | .release _ _ => none
  | .deactivate _ => none
  | .ads _ => none
  | .env _ _ => none
  | .freq _ => none
  | .osc _ => none
  | .ingest => none
  | .frame _ => none

/-- The bytes of a record, first byte first (30 R80). -/
def Record.bytes (r : Record) : List Byte := [r.status, r.noteIndex, r.velocity]

/-- The numbering of WAVE: the document's order of listing (30 R89, D9). -/
def Wave.code : Wave → BitVec 2
  | .sine => 0#2
  | .triangle => 1#2
  | .square => 2#2
  | .sawtooth => 3#2

/-- The oscillator a value of the 2-bit field WAVE selects (30 R89). -/
def Wave.ofCode (c : BitVec 2) : Wave :=
  if c = 0#2 then .sine else if c = 1#2 then .triangle else if c = 2#2 then .square else .sawtooth

/-- The operation that evaluates an oscillator at a phase. -/
def Wave.instr (w : Wave) (x : Phase) : Instr :=
  match w with
  | .sine => .sine x
  | .triangle => .triangle x
  | .square => .square x
  | .sawtooth => .sawtooth x

/-- The record of a 24-bit word `W = rec[0] * 65536 + rec[1] * 256 + rec[2]` (00 R9). -/
def Record.ofWord (w : Nat) : Record :=
  ⟨BitVec.ofNat 8 (w / 65536), BitVec.ofNat 8 (w / 256), BitVec.ofNat 8 w⟩

/-- The word of a record (00 R9). -/
def Record.toWord (r : Record) : Nat :=
  r.status.toNat * 65536 + r.noteIndex.toNat * 256 + r.velocity.toNat

/-- The operation the decoder reads from the word `w` of a row of spec/opcode_table.json. A row of format EV3
has 24 bits, numbered as in the word `W` of 00 R9; a row of format WAVE has the two bits of the field WAVE in
its one byte, and the phase, to which the table gives no bits, is zero. DESIGN CHOICE, safe (log 21). -/
def decodeTableWord (nbits w : Nat) : Option Instr :=
  if nbits = 8 * Config.recordBytes then
    match decode (Record.ofWord w).bytes with
    | .ok (i, []) => some i
    | .ok (_, _ :: _) => none
    | .error _ => none
  else if 0 < nbits ∧ nbits ≤ 8 then
    some ((Wave.ofCode (BitVec.ofNat 2 w)).instr (.turns (.rat 0) 0))
  else none

end Sys2Proof
end

