-- ==== Sys2Proof/Machine/State.lean ====
section
/-! DEFINITION. The state of the engine as plain data (10_state.md), the reasons a step can stop, and the state right after reset. -/

namespace Sys2Proof.Machine

/-- One entry of the Note table (10 R21 to R24). -/
structure Note where
  /-- "true while the originating key/controller key is held" (10 R22). -/
  pressed : Bool
  /-- "true while the voice must still be rendered" (10 R23). -/
  active : Bool
  /-- The value of `tick` at the last PRESS that found `pressed` false (10 R24). -/
  tickPressed : Nat
  /-- The value of `tick` at the last RELEASE (10 R24). -/
  tickReleased : Nat
  deriving DecidableEq, Repr

/-- Whether a Synth State exists: OPEN creates it, CLOSE ends it (70 R200, R202). -/
inductive Stream where
  | absent
  | opened
  deriving DecidableEq, Repr

/-- Whether the producer's side of the event channel still exists (20 R55, 60 R172). -/
inductive Channel where
  | connected
  | closed
  deriving DecidableEq, Repr

/-- The sequencer of a FILL (10 R26). `ingesting frames` also carries the request's `P`, which the drain does not use. -/
inductive Seq where
  | ready
  | ingesting (frames : Nat)
  | rendering (k frames : Nat)
  deriving DecidableEq, Repr

/-- The conditions of 60 R170. Only `invalidNoteIndex` arises inside the engine. -/
inductive Condition where
  | invalidNoteIndex
  | channelFailure
  | unsupportedSampleFormat
  | noOutputDevice
  | noInputPort
  deriving DecidableEq, Repr

/-- One entry of the condition report (60 R173, R174). -/
structure ReportEntry where
  condition : Condition
  index : Byte
  time : Nat
  deriving DecidableEq, Repr

/-- What the last operation that hands a value to its caller handed over. The MODEL's own, not the spec's
(DESIGN CHOICE, safe, log 8): no operation reads it. -/
inductive Ret where
  | nothing
  /-- The value of an oscillator, ADS, ENV or FREQ. -/
  | value (v : ExactNum)
  /-- Whether a PUSH was accepted (20 R56). -/
  | accepted (ok : Bool)
  deriving DecidableEq, Repr

/-- One move of the environment, or one turn of the engine. The MODEL's own, not the spec's (DESIGN CHOICE,
safe, log 9): the order in which host, producer and engine move is data. DESIGN CHOICE, unsafe (log 24): a script is
a finite list, so a producer that never stops pushing (44 R136, 70 R214, 93 U7) is not among the environments, and the
premise FiniteDrain (70 R222 (e)) always holds. -/
inductive Move where
  /-- An agent performs one operation, whole. The moves of 70 R221 are OPEN, PUSH, FILL and CLOSE
  (`Move.atBoundary`); any other operation is a test bench's. -/
  | perform (i : Instr)
  /-- The host asks for a FILL that runs in the micro-steps of 45 R151. -/
  | request (frames : Nat)
  /-- The engine takes one micro-step. -/
  | engine
  /-- The producer's side of the channel goes away (20 R55, 60 R172). -/
  | hangUp
  deriving DecidableEq, Repr

/-- The contents of the space OUT: pairs of an element number and the amplitude in it, by rising element number
(`Memory.wf`). The engine has no memory of bytes (20 R59): an element is an exact real (20 R57). -/
abbrev Memory := List (Nat × ExactNum)

/-- The state of the engine (10 R20, R34) and of its boundary. -/
structure State where
  /-- Whether the Synth State exists. -/
  stream : Stream
  /-- The sample counter (10 R25). -/
  tick : Nat
  /-- The space NOTE (10 R21). -/
  notes : Vector Note Config.notes
  /-- The configuration (10 R30). -/
  cfg : Cfg
  /-- The space EVQ, oldest record first (20 R54). -/
  evq : List Record
  /-- The producer's side of the channel (20 R55). -/
  chan : Channel
  /-- The sequencer (10 R26). -/
  seq : Seq
  /-- The space OUT: the elements written so far, by rising element number (20 R57, log 18). -/
  out : Memory
  /-- The condition report, oldest entry first (60 R173). -/
  report : List ReportEntry
  /-- The implementation's parameters TICK_W and QDEPTH (00 R6). -/
  impl : Impl
  /-- The MODEL's own: the value handed over last (log 8). -/
  ret : Ret
  /-- The MODEL's own: the moves still to come (log 9), finitely many, so that every drain ends (log 24). -/
  script : List Move
  deriving DecidableEq, Repr

/-- Why the machine stops with a fault. -/
inductive Fault where
  /-- Raised by FRAME, and so by FILL, when the increment of `tick` would reach 2^TICK_W (10 R25, 45 R155).
  Safe: the spec gives no behaviour after it (60 R183). -/
  | tickOverflow
  deriving DecidableEq, Repr

/-- Why the machine gives an operation no meaning. -/
inductive Refusal where
  /-- The arm of `exec` of an operation not modelled yet; no arm is refused so. Safe. -/
  | notModelled (mnemonic : String)
  /-- Raised by every operation on the Synth State when there is none: "FILL before OPEN or after CLOSE" is a
  move that is never made (70 R221), and after CLOSE the Synth State no longer exists (70 R202). Safe. -/
  | noStream
  /-- Raised by OPEN for a configuration outside the legal values (00 R7), and by every operation on a Synth
  State that holds one, which no run reaches: "the spec gives such an engine no behaviour". Safe. -/
  | illegalConfig
  /-- Raised by OPEN while a stream is open: "OPEN happens once per stream" (70 R200 (a)), it is allowed "once, before
  anything else" (70 R221). Safe. -/
  | streamOpen
  /-- Raised by FILL, OPEN and CLOSE while a FILL is in progress: no such step exists (70 R213, 93 U12). Safe. -/
  | fillInProgress
  deriving DecidableEq, Repr

/-- The answer of an operation of the engine. -/
abbrev Answer := Host.Outcome State Fault Refusal

/-- An Idle note as OPEN leaves it (10 R35). -/
def Note.idle : Note := ⟨false, false, 0, 0⟩

/-- The configuration of the state after reset: the document's defaults, with `R` = 44100 and `C` = 2, which
the spec leaves to the host. DESIGN CHOICE, unsafe (log 10). -/
def resetCfg : Cfg where
  attack := .rat Config.attack
  decay := .rat Config.decay
  sustain := .rat Config.sustain
  release := .rat Config.release
  referenceFrequency := .rat Config.referenceFrequency
  masterVolume := .rat Config.masterVolume
  wave := Config.wave
  rate := 44100
  channels := 2

/-- The machine right after reset, that is after OPEN (10 R35, 70 R200). -/
def State.reset : State where
  stream := .opened
  tick := 0
  notes := Vector.replicate Config.notes Note.idle
  cfg := resetCfg
  evq := []
  chan := .connected
  seq := .ready
  out := []
  report := []
  impl := ⟨none, none⟩
  ret := .nothing
  script := []

end Sys2Proof.Machine
end

