-- ==== Sys2Proof/Machine/Flags.lean ====
section
/-! DEFINITION. The flags `pressed` and `active` of one note: the three lifecycle updates of a note entry and the state the flags spell (10 R27, 40 R100). -/

namespace Sys2Proof.Machine

/-- A key goes down at time `t`: nothing is written when the note is already pressed (40 R101). -/
def Note.press (t : Nat) (n : Note) : Note :=
  if n.pressed then n
  else { n with pressed := true, active := true, tickPressed := t }

/-- A key goes up at time `t`, whatever the state of the note; `active` is not written (40 R102). -/
def Note.release (t : Nat) (n : Note) : Note :=
  { n with pressed := false, tickReleased := t }

/-- The release tail has become inaudible (40 R103). -/
def Note.deactivate (n : Note) : Note :=
  { n with active := false }

/-- The states of a note (40 R100); `unreachable` is pressed without active (10 R28). -/
inductive NoteState where
  | idle
  | pressed
  | releasedActive
  | unreachable
  deriving DecidableEq, Repr

/-- The state a note's two flags spell (40 R100). -/
def Note.state (n : Note) : NoteState :=
  match n.pressed, n.active with
  | false, false => .idle
  | true, true => .pressed
  | false, true => .releasedActive
  | true, false => .unreachable

end Sys2Proof.Machine
end

