-- ==== Sys2Proof/Machine/Number.lean ====
section
/-! DEFINITION. Exact arithmetic on the model's numbers: sums of multiples of bases, in canonical form. -/

namespace Sys2Proof

/-- A number for each oscillator, for ordering bases only. -/
def Wave.rank : Wave → Int
  | .sine => 0
  | .triangle => 1
  | .square => 2
  | .sawtooth => 3

/-- A list of integers that tells a scalar from every other, and is the start of no other's. -/
def Scalar.key : Scalar → List Int
  | .rat q => [0, q.num, q.den]
  | .named n => [1, n]
  | .add x y => 2 :: (x.key ++ y.key)
  | .mul x y => 3 :: (x.key ++ y.key)
  | .inv x => 4 :: x.key

/-- A list of integers that tells a phase from every other. -/
def Phase.key : Phase → List Int
  | .turns q m => 0 :: (m.val : Int) :: q.key
  | .radians x => 1 :: x.key

/-- A list of integers that tells a base from every other: `root` before `wave`. -/
def Base.key : Base → List Int
  | .root m => [0, m.val]
  | .wave w x => 1 :: w.rank :: x.key

/-- The dictionary order on keys. -/
def keyLt : List Int → List Int → Bool
  | [], [] => false
  | [], _ :: _ => true
  | _ :: _, [] => false
  | a :: as, b :: bs => if a < b then true else if b < a then false else keyLt as bs

/-- Add `c` times the base `b` to a sorted sum. -/
def insertTerm (b : Base) (c : Scalar) : List (Base × Scalar) → List (Base × Scalar)
  | [] => [(b, c)]
  | (b', c') :: ts =>
    if b = b' then (if c'.plus c = .rat 0 then ts else (b', c'.plus c) :: ts)
    else if keyLt b.key b'.key then (b, c) :: (b', c') :: ts
    else (b', c') :: insertTerm b c ts

/-- Every base comes before the next. -/
def sortedTerms : List (Base × Scalar) → Bool
  | [] => true
  | [_] => true
  | a :: b :: ts => keyLt a.1.key b.1.key && sortedTerms (b :: ts)

/-- The canonical form of a number: sorted bases, no multiple that is the literal 0. -/
def ExactNum.wf (n : ExactNum) : Bool :=
  sortedTerms n.terms && n.terms.all fun t => t.2 != .rat 0

/-- The number `c` times the base `b`. -/
def ExactNum.term (b : Base) (c : Scalar) : ExactNum := ⟨if c = .rat 0 then [] else [(b, c)]⟩

/-- The number 0. -/
def ExactNum.zero : ExactNum := ⟨[]⟩

/-- A scalar. -/
def ExactNum.ofScalar (x : Scalar) : ExactNum := ExactNum.term (.root 0) x

/-- A rational. -/
def ExactNum.ofRat (q : Rat) : ExactNum := ExactNum.ofScalar (.rat q)

/-- The number `q * 2^(m/12)`. -/
def ExactNum.mono (q : Scalar) (m : Fin Config.semitones) : ExactNum := ExactNum.term (.root m) q

/-- Add `c` times the base `b` to a number. -/
def ExactNum.addTerm (n : ExactNum) (t : Base × Scalar) : ExactNum :=
  if t.2 = .rat 0 then n else ⟨insertTerm t.1 t.2 n.terms⟩

/-- The sum of two numbers. -/
def ExactNum.add (x y : ExactNum) : ExactNum := y.terms.foldl ExactNum.addTerm x

/-- The product of a number and a scalar. -/
def ExactNum.scale (c : Scalar) (n : ExactNum) : ExactNum :=
  ⟨if c = .rat 0 then [] else n.terms.map fun t => (t.1, c.times t.2)⟩

end Sys2Proof
end

