-- ==== Sys2Proof/Machine/Operands.lean ====
section
/-! DEFINITION. Every operand form: the note index of a record, the configuration of an OPEN, times in seconds, and the phase of a voice. -/

namespace Sys2Proof

/-- Whether a configuration is legal (00 R7). -/
def Cfg.legal (c : Cfg) : Bool :=
  (Scalar.rat 0).lt c.attack && (Scalar.rat 0).le c.decay && (Scalar.rat 0).lt c.release
    && (Scalar.rat 0).le c.sustain && c.sustain.le (.rat 1) && (Scalar.rat 0).lt c.referenceFrequency
    && decide (1 ≤ c.rate) && decide (1 ≤ c.channels)

/-- The configuration an OPEN hands over: fields not given take the document's defaults (70 R200). -/
def OpenArgs.cfg (a : OpenArgs) : Cfg where
  attack := a.attack.getD (.rat Config.attack)
  decay := a.decay.getD (.rat Config.decay)
  sustain := a.sustain.getD (.rat Config.sustain)
  release := a.release.getD (.rat Config.release)
  referenceFrequency := a.referenceFrequency.getD (.rat Config.referenceFrequency)
  masterVolume := a.masterVolume.getD (.rat Config.masterVolume)
  wave := a.wave.getD Config.wave
  rate := a.rate
  channels := a.channels

namespace Machine

/-- The note entry a byte names, if it names one: the only access check of the engine (20 R51, R63). -/
def noteIndex? (i : Byte) : Option NoteIx :=
  if h : i.toNat < Config.notes then some ⟨i.toNat, h⟩ else none

/-- The seconds from the frame count `since` to the frame count `t`: the exact difference over `R`, a real
division (41 R112). DEDUCED, safe (log 6): the difference is signed where `t` is the smaller. -/
def secondsSince (c : Cfg) (t since : Nat) : Rat :=
  (((t : Int) - (since : Int) : Int) : Rat) / (c.rate : Rat)

/-- The time of frame `t` in seconds, `t / R` (45 R152). -/
def secondsAt (c : Cfg) (t : Nat) : Rat := (t : Rat) / (c.rate : Rat)

/-- `index - REF_INDEX`, a signed difference (43 R130). -/
def semitonesFromRef (i : NoteIx) : Int := (i.val : Int) - Config.refIndex

/-- The frequency of a note as `q * 2^(m/12)`: whole octaves go into the factor (43 R130). -/
def freqFactor (c : Cfg) (i : NoteIx) : Scalar :=
  c.referenceFrequency.times (.rat (powTwo (semitonesFromRef i / (Config.semitones : Int))))

/-- The `m` of the frequency of a note as `q * 2^(m/12)`. -/
def freqRoot (i : NoteIx) : Fin Config.semitones :=
  Fin.ofNat Config.semitones (semitonesFromRef i % (Config.semitones : Int)).toNat

/-- The phase of a voice, `2 * π * (t / R) * FREQ(i)`, not reduced (45 R152, R153). -/
def voicePhase (c : Cfg) (t : Nat) (i : NoteIx) : Phase :=
  .turns ((Scalar.rat (secondsAt c t)).times (freqFactor c i)) (freqRoot i)

end Machine

end Sys2Proof
end

