-- ==== Sys2Proof/Machine/Ops.lean ====
section
/-! DEFINITION. The named operations over the state: the guard of the Synth State, the spaces NOTE, EVQ and OUT, the sample counter, and the one operation that raises a condition. -/

namespace Sys2Proof.Machine

/-- An operation on the Synth State has a meaning only where one exists (70 R202, R221) and its configuration
is legal (00 R7: "the spec gives such an engine no behaviour"). -/
def State.onEngine (s : State) (answer : Answer) : Answer :=
  if s.stream = .absent then .refused .noStream
  else if s.cfg.legal then answer
  else .refused .illegalConfig

/-- `MemRead(NOTE, i)`, the entry of note `i` (20 R51). -/
def State.note (s : State) (i : NoteIx) : Note := s.notes[i.val]

/-- `MemWrite(NOTE, i, v)`: the writes of one operation to one entry, indivisible (20 R52). -/
def State.setNote (s : State) (i : NoteIx) (n : Note) : State :=
  { s with notes := s.notes.set i.val n }

/-- `raise`: append one entry to the condition report and write nothing else (60 R173, R177). -/
def State.raise (s : State) (c : Condition) (i : Byte) (t : Nat) : State :=
  { s with report := s.report ++ [⟨c, i, t⟩] }

/-- The numeric code of a condition (60 R170, D14). -/
def Condition.code : Condition → Nat
  | .invalidNoteIndex => 1
  | .channelFailure => 2
  | .unsupportedSampleFormat => 3
  | .noOutputDevice => 4
  | .noInputPort => 5

/-- `EvqTryPop()`: the oldest record and the state without it, or `none` at once; a closed channel answers like
an open one (20 R55). -/
def State.evqTryPop (s : State) : Option (Record × State) :=
  match s.evq with
  | [] => none
  | r :: rest => some (r, { s with evq := rest })

/-- Whether EVQ takes one more record: below QDEPTH (20 R56), on a channel whose producer's side exists
(60 R172; DESIGN CHOICE, log 15). -/
def State.evqHasRoom (s : State) : Bool :=
  match s.chan with
  | .closed => false
  | .connected =>
    match s.impl.qdepth with
    | none => true
    | some depth => decide (s.evq.length < depth)

/-- Append a record at the tail of EVQ (20 R56). -/
def State.evqAppend (s : State) (r : Record) : State :=
  { s with evq := s.evq ++ [r] }

/-- The elements of OUT in their canonical form: element numbers strictly rising, each amplitude canonical. -/
def Memory.wf : Memory → Bool
  | [] => true
  | [c] => c.2.wf
  | a :: b :: cs => decide (a.1 < b.1) && a.2.wf && Memory.wf (b :: cs)

/-- Write element `a` of OUT. -/
def Memory.write (a : Nat) (v : ExactNum) : Memory → Memory
  | [] => [(a, v)]
  | (b, w) :: cs =>
    if a < b then (a, v) :: (b, w) :: cs
    else if a = b then (a, v) :: cs
    else (b, w) :: Memory.write a v cs

/-- What element `a` of OUT holds, if it has been written. An element that has not been written in this FILL
has no value here (DESIGN CHOICE, safe, log 18). -/
def Memory.read (a : Nat) : Memory → Option ExactNum
  | [] => none
  | (b, w) :: cs => if a = b then some w else Memory.read a cs

/-- Element `a` of OUT (20 R57). -/
def State.outRead (s : State) (a : Nat) : Option ExactNum := Memory.read a s.out

/-- The element number of channel `ch` of frame `k`: interleaved (20 R57, D20). -/
def outIndex (c : Cfg) (k ch : Nat) : Nat := k * c.channels + ch

/-- `OutWrite(k, ch, v)` (20 R57). -/
def State.outWrite (s : State) (k : Nat) (v : ExactNum) (ch : Nat) : State :=
  { s with out := Memory.write (outIndex s.cfg k ch) v s.out }

/-- Whether the sample counter can hold `n` (10 R25). -/
def State.tickFits (s : State) (n : Nat) : Bool :=
  match s.impl.tickW with
  | none => true
  | some w => decide (n < 2 ^ w)

/-- `tick <- t + 1`, the last act of FRAME; the increment that would reach 2^TICK_W is the fault TickOverflow
(10 R25, 45 R155). -/
def State.advanceTick (s : State) : Answer :=
  if s.tickFits (s.tick + 1) then .next { s with tick := s.tick + 1 } else .fault .tickOverflow

/-- Hand a value to the caller of an operation (log 8). -/
def State.giveValue (s : State) (v : ExactNum) : State := { s with ret := .value v }

end Sys2Proof.Machine
end

