-- ==== Sys2Proof/Machine/HostCommands.lean ====
section
/-! DEFINITION. The host commands OPEN, PUSH and CLOSE (70_reset_and_hazards.md, 20 R56). FILL stands in Render.lean. -/

namespace Sys2Proof.Machine

/-- A new Synth State with the configuration `c` (70 R200). EVQ is not touched: records already in it are ingested
by the first FILL. DESIGN CHOICE, safe (log 15): the channel is not touched either. A producer that went away before the
OPEN (after the last CLOSE) stays away, and its side of the queue handed over is closed. The spec gives no value. -/
def State.created (s : State) (c : Cfg) : State :=
  { s with
    stream := .opened
    tick := 0
    notes := Vector.replicate Config.notes Note.idle
    cfg := c
    seq := .ready
    out := []
    report := []
    ret := .nothing }

/-- OPEN (70 R200): it happens once per stream, so not while one is open (70 R221, log 13), and a configuration that is
not legal is refused (00 R7). -/
def execOpenStream (a : OpenArgs) (s : State) : Answer :=
  if s.seq ≠ .ready then .refused .fillInProgress
  else if s.stream = .opened then .refused .streamOpen
  else if a.cfg.legal then .next (s.created a.cfg)
  else .refused .illegalConfig

/-- PUSH (20 R56): allowed at any time; the producer is told whether the record was accepted. -/
def execPush (r : Record) (s : State) : Answer :=
  if s.evqHasRoom then .next { s.evqAppend r with ret := .accepted true }
  else .next { s with ret := .accepted false }

/-- CLOSE (70 R202): the Synth State ceases to exist, and with it the queue and its records. DESIGN CHOICE (log 14). -/
def execCloseStream (s : State) : Answer :=
  if s.stream = .absent then .refused .noStream
  else if s.seq = .ready then .next { s with stream := .absent, evq := [], chan := .connected }
  else .refused .fillInProgress

end Sys2Proof.Machine
end

