-- ==== Sys2Proof/Machine/NoteState.lean ====
section
/-! DEFINITION. The note state machine: PRESS, RELEASE, DEACTIVATE (40_note_state.md). -/

namespace Sys2Proof.Machine

/-- PRESS(i, t) on the Synth State (40 R101). -/
def State.pressAt (s : State) (i : Byte) (t : Nat) : State :=
  match noteIndex? i with
  | none => s.raise .invalidNoteIndex i t
  | some ix => s.setNote ix ((s.note ix).press t)

/-- RELEASE(i, t) on the Synth State (40 R102). -/
def State.releaseAt (s : State) (i : Byte) (t : Nat) : State :=
  match noteIndex? i with
  | none => s.raise .invalidNoteIndex i t
  | some ix => s.setNote ix ((s.note ix).release t)

/-- DEACTIVATE of a note in range (40 R103). -/
def State.deactivateNote (s : State) (i : NoteIx) : State :=
  s.setNote i (s.note i).deactivate

/-- DEACTIVATE(i) on the Synth State (40 R103). DESIGN CHOICE, safe (log 19): a condition it raised would be
reported with the present `tick`. -/
def State.deactivateAt (s : State) (i : Byte) : State :=
  match noteIndex? i with
  | none => s.raise .invalidNoteIndex i s.tick
  | some ix => s.deactivateNote ix

/-- PRESS (40 R101). -/
def execPress (i : Byte) (t : Nat) (s : State) : Answer := s.onEngine (.next (s.pressAt i t))

/-- RELEASE (40 R102). -/
def execRelease (i : Byte) (t : Nat) (s : State) : Answer := s.onEngine (.next (s.releaseAt i t))

/-- DEACTIVATE (40 R103). -/
def execDeactivate (i : Byte) (s : State) : Answer := s.onEngine (.next (s.deactivateAt i))

end Sys2Proof.Machine
end

