-- ==== Sys2Proof/Machine/Envelope.lean ====
section
/-! DEFINITION. The ADSR envelope generator: ADS and ENV (41_envelope.md). -/

namespace Sys2Proof.Machine

/-- ADS(l), the attack, decay and sustain curve (41 R111). -/
def adsAt (c : Cfg) (l : Scalar) : Scalar :=
  if l.le c.attack then l.over c.attack
  else if l.le (c.attack.plus c.decay) then
    (Scalar.rat 1).minus (((l.minus c.attack).over c.decay).times ((Scalar.rat 1).minus c.sustain))
  else c.sustain

/-- The release ramp times the moving ADS curve, not frozen at the release (41 R112, R114). -/
def releaseValue (c : Cfg) (n : Note) (t : Nat) : Scalar :=
  ((Scalar.rat 1).minus ((Scalar.rat (secondsSince c t n.tickReleased)).over c.release)).times
    (adsAt c (.rat (secondsSince c t n.tickPressed)))

/-- Whether ENV performs DEACTIVATE on an active note: released, and at or below the floor (41 R112). -/
def tailInaudible (c : Cfg) (n : Note) (t : Nat) : Bool :=
  !n.pressed && (releaseValue c n t).le (.rat Config.floor)

/-- The amplitude multiplier ENV returns for an active note (41 R112). -/
def envValue (c : Cfg) (n : Note) (t : Nat) : Scalar :=
  if n.pressed then adsAt c (.rat (secondsSince c t n.tickPressed))
  else if (releaseValue c n t).le (.rat Config.floor) then .rat 0
  else releaseValue c n t

/-- ENV(i, t) on the Synth State: the multiplier and the state after it. An inactive note gives 0 and is not
written (41 R112 (g), D24). -/
def State.envAt (s : State) (i : NoteIx) (t : Nat) : Scalar × State :=
  if (s.note i).active then
    (envValue s.cfg (s.note i) t, if tailInaudible s.cfg (s.note i) t then s.deactivateNote i else s)
  else (.rat 0, s)

/-- ADS (41 R111). DEDUCED, safe (log 5): for a negative lifetime the first branch applies as written. -/
def execAds (l : Scalar) (s : State) : Answer :=
  s.onEngine (.next (s.giveValue (ExactNum.ofScalar (adsAt s.cfg l))))

/-- ENV (41 R112). -/
def execEnv (i : NoteIx) (t : Nat) (s : State) : Answer :=
  s.onEngine (.next ((s.envAt i t).2.giveValue (ExactNum.ofScalar (s.envAt i t).1)))

end Sys2Proof.Machine
end

