-- ==== Sys2Proof/Machine/Frequency.lean ====
section
/-! DEFINITION. The frequency mapping: FREQ (43_frequency.md). -/

namespace Sys2Proof.Machine

/-- `FREQ(i) = reference_frequency * 2 ^ ((i - 69) / 12)` (43 R130). -/
def freqAt (c : Cfg) (i : NoteIx) : ExactNum := ExactNum.mono (freqFactor c i) (freqRoot i)

/-- FREQ (43 R130). -/
def execFreq (i : NoteIx) (s : State) : Answer := s.onEngine (.next (s.giveValue (freqAt s.cfg i)))

end Sys2Proof.Machine
end

