-- ==== Sys2Proof/Machine/Ingestion.lean ====
section
/-! DEFINITION. Event ingestion: NOTE_ON, NOTE_OFF, EV_OTHER and INGEST (44_event_ingestion.md). -/

namespace Sys2Proof.Machine

/-- What one decoded record does at time `t` (44 R137, R138, R139); velocity is never read (30 R83). -/
def State.applyEvent (s : State) (t : Nat) (e : Event) : State :=
  match e with
  | .noteOn n _ => s.pressAt n t
  | .noteOff n _ => s.releaseAt n t
  | .other _ _ _ => s

/-- The loop of INGEST: pop the oldest record, apply it at time `t`, go on until the queue is empty (44 R135, R136).
The list is the contents of EVQ, so the loop is structural. -/
def drain (t : Nat) : List Record → State → State
  | [], s => { s with evq := [] }
  | r :: rest, s => drain t rest (State.applyEvent { s with evq := rest } t (decodeEvent r))

/-- INGEST on the Synth State: the whole drain at the one time `tick` (44 R135). -/
def State.ingested (s : State) : State := drain s.tick s.evq s

/-- NOTE_ON (44 R137). -/
def execNoteOn (n _velocity : Byte) (s : State) : Answer := s.onEngine (.next (s.pressAt n s.tick))

/-- NOTE_OFF (44 R138). -/
def execNoteOff (n _velocity : Byte) (s : State) : Answer := s.onEngine (.next (s.releaseAt n s.tick))

/-- EV_OTHER: the record has left the queue and nothing else happens (44 R139). -/
def execEvOther (_status _n _velocity : Byte) (s : State) : Answer := s.onEngine (.next s)

/-- INGEST (44 R135). -/
def execIngest (s : State) : Answer := s.onEngine (.next s.ingested)

end Sys2Proof.Machine
end

