-- ==== Sys2Proof/Machine/Oscillators.lean ====
section
/-! DEFINITION. The oscillator bank: SINE, TRIANGLE, SQUARE, SAWTOOTH and the selector OSC (42_oscillators.md). Each value is exact: where the phase is a number of turns the three piecewise linear functions are computed in the span of the 2^(m/12), and a sine that is no rational is kept as the base it is. -/

namespace Sys2Proof

/-- An oscillator's value kept as a base of its own. -/
def ExactNum.ofWave (w : Wave) (x : Phase) : ExactNum := ExactNum.term (.wave w x) (.rat 1)

namespace Machine

/-- The position within the period, `u = v - floor v` for `v = q * 2^(m/12)` turns, `0 <= u < 1` (42 R122). -/
def periodPosition (q : Scalar) (m : Fin Config.semitones) : ExactNum :=
  (ExactNum.mono q m).add (ExactNum.ofRat (-(q.floorTimes m : Rat)))

/-- The sine of `u` turns for `0 <= u <= 1/4`. -/
def sineQuarter (u : Rat) : ExactNum :=
  if u = 0 then ExactNum.zero
  else if u = 1 / 12 then ExactNum.ofRat (1 / 2)
  else if u = 1 / 4 then ExactNum.ofRat 1
  else ExactNum.ofWave .sine (.turns (.rat u) 0)

/-- The sine of `u` turns for `0 <= u < 1`, brought to the first quarter by its symmetries. -/
def sineTurn (u : Rat) : ExactNum :=
  if u ≤ 1 / 4 then sineQuarter u
  else if u ≤ 1 / 2 then sineQuarter (1 / 2 - u)
  else if u ≤ 3 / 4 then (sineQuarter (u - 1 / 2)).scale (.rat (-1))
  else (sineQuarter (1 - u)).scale (.rat (-1))

/-- `SINE(x) = sin(x)` (42 R121). -/
def sineAt : Phase → ExactNum
  | .turns (.rat q) m =>
    if q = 0 ∨ m = 0 then sineTurn (q - (rootFloor q 0 : Rat))
    else if 0 < q then ExactNum.ofWave .sine (.turns (.rat q) m)
    else (ExactNum.ofWave .sine (.turns (.rat (-q)) m)).scale (.rat (-1))
  | .turns x m => ExactNum.ofWave .sine (.turns x m)
  | .radians (.rat q) =>
    if q = 0 then ExactNum.zero
    else if 0 < q then ExactNum.ofWave .sine (.radians (.rat q))
    else (ExactNum.ofWave .sine (.radians (.rat (-q)))).scale (.rat (-1))
  | .radians x => ExactNum.ofWave .sine (.radians x)

/-- `TRIANGLE(x) = asin(sin(x)) / (π / 2)`, in its piecewise linear form (42 R122). -/
def triangleAt : Phase → ExactNum
  | .turns q m =>
    if ((Scalar.rat 4).times q).floorTimes m % 4 = 0 then (periodPosition q m).scale (.rat 4)
    else if ((Scalar.rat 4).times q).floorTimes m % 4 = 3 then
      ((periodPosition q m).scale (.rat 4)).add (ExactNum.ofRat (-4))
    else (ExactNum.ofRat 2).add ((periodPosition q m).scale (.rat (-4)))
  | .radians x => if x = .rat 0 then ExactNum.zero else ExactNum.ofWave .triangle (.radians x)

/-- `SQUARE(x)`, 1 where `sin(x) >= 0` and -1 elsewhere: in turns, 1 for `0 <= u <= 1/2` (42 R123). -/
def squareAt : Phase → ExactNum
  | .turns q m =>
    if ((Scalar.rat 2).times q).floorTimes m % 2 = 0 ∨ ((Scalar.rat 2).times q).timesIsInt m = true then
      ExactNum.ofRat 1
    else ExactNum.ofRat (-1)
  | .radians x => if x = .rat 0 then ExactNum.ofRat 1 else ExactNum.ofWave .square (.radians x)

/-- `SAWTOOTH(x) = emod(x / (2π), 2) - 1` (42 R124): two turns make one period, as the formula says. -/
def sawtoothAt : Phase → ExactNum
  | .turns q m => (ExactNum.mono q m).add
      (ExactNum.ofRat (-2 * ((q.over (.rat 2)).floorTimes m : Rat) - 1))
  | .radians x => if x = .rat 0 then ExactNum.ofRat (-1) else ExactNum.ofWave .sawtooth (.radians x)

/-- `OSC(x)`: the function that WAVE selects (42 R125). -/
def oscAt (w : Wave) (x : Phase) : ExactNum :=
  match w with
  | .sine => sineAt x
  | .triangle => triangleAt x
  | .square => squareAt x
  | .sawtooth => sawtoothAt x

/-- SINE (42 R121). -/
def execSine (x : Phase) (s : State) : Answer := .next (s.giveValue (sineAt x))

/-- TRIANGLE (42 R122). -/
def execTriangle (x : Phase) (s : State) : Answer := .next (s.giveValue (triangleAt x))

/-- SQUARE (42 R123). -/
def execSquare (x : Phase) (s : State) : Answer := .next (s.giveValue (squareAt x))

/-- SAWTOOTH (42 R124). -/
def execSawtooth (x : Phase) (s : State) : Answer := .next (s.giveValue (sawtoothAt x))

/-- OSC (42 R125). -/
def execOsc (x : Phase) (s : State) : Answer :=
  s.onEngine (.next (s.giveValue (oscAt s.cfg.wave x)))

end Machine

end Sys2Proof
end

