-- ==== Sys2Proof/Machine/Render.lean ====
section
/-! DEFINITION. The render loop and the polyphonic mixer: FRAME and FILL (45_render_loop.md). -/

namespace Sys2Proof.Machine

/-- One step of the scan: note `i`, when it is active, adds `OSC(phase) * ENV(i, t) * master_volume` to the sum, and
its ENV may take it out of the mix (45 R152, R154). -/
def mixVoice (t : Nat) (acc : ExactNum × State) (i : NoteIx) : ExactNum × State :=
  if (acc.2.note i).active then
    (acc.1.add ((oscAt acc.2.cfg.wave (voicePhase acc.2.cfg t i)).scale
        ((acc.2.envAt i t).1.times acc.2.cfg.masterVolume)),
      (acc.2.envAt i t).2)
  else acc

/-- The notes in the order of the scan: ascending (45 R154, D10). -/
def scanOrder : List NoteIx := List.finRange Config.notes

/-- The scan of the 128 notes, from amplitude 0 (45 R152). -/
def State.mixed (s : State) (t : Nat) : ExactNum × State :=
  scanOrder.foldl (mixVoice t) (ExactNum.zero, s)

/-- The amplitude to every channel of frame `k` (45 R152). -/
def State.writeFrame (s : State) (k : Nat) (v : ExactNum) : State :=
  (List.range s.cfg.channels).foldl (fun u ch => u.outWrite k v ch) s

/-- FRAME(k) on the Synth State: mix, write, advance `tick` (45 R152). -/
def State.rendered (s : State) (k : Nat) : Answer :=
  ((s.mixed s.tick).2.writeFrame k (s.mixed s.tick).1).advanceTick

/-- The frames `k`, `k + 1`, and so on, `count` of them, in order (45 R150). -/
def renderFrames : Nat → Nat → State → Answer
  | 0, _, s => .next s
  | count + 1, k, s =>
    match s.rendered k with
    | .next u => renderFrames count (k + 1) u
    | .fault f => .fault f
    | .refused r => .refused r

/-- FRAME (45 R152). DESIGN CHOICE (log 17): the frame index is the caller's and is not tested. -/
def execFrame (k : Nat) (s : State) : Answer := s.onEngine (s.rendered k)

/-- FILL, whole (45 R150): allowed only in sequencer state Ready, with a buffer whose old contents do not matter. -/
def execFill (frames : Nat) (s : State) : Answer :=
  s.onEngine
    (if s.seq = .ready then renderFrames frames 0 { s.ingested with out := [] }
     else .refused .fillInProgress)

/-- The first micro-step of a FILL: Ready to Ingesting, the request accepted (45 R151). -/
def State.acceptFill (s : State) (frames : Nat) : Answer :=
  s.onEngine
    (if s.seq = .ready then .next { s with seq := .ingesting frames, out := [] }
     else .refused .fillInProgress)

/-- The sequencer after frame `k` of `frames` has been rendered (45 R151). -/
def seqAfterFrame (k frames : Nat) : Seq :=
  if k + 1 < frames then .rendering (k + 1) frames else .ready

/-- The sequencer after the queue has been found empty (45 R151). -/
def seqAfterDrain (frames : Nat) : Seq :=
  if frames = 0 then .ready else .rendering 0 frames

end Sys2Proof.Machine
end

