-- ==== Sys2Proof/Machine/Dispatch.lean ====
section
/-! DEFINITION. The one dispatch: the meaning of every operation. -/

namespace Sys2Proof.Machine

def exec (i : Instr) (s : State) : Host.Outcome State Fault Refusal :=
  match i with
  | .noteOn n v => Sys2Proof.Machine.execNoteOn n v s
  | .noteOff n v => Sys2Proof.Machine.execNoteOff n v s
  | .evOther st n v => Sys2Proof.Machine.execEvOther st n v s
  | .sine x => Sys2Proof.Machine.execSine x s
  | .triangle x => Sys2Proof.Machine.execTriangle x s
  | .square x => Sys2Proof.Machine.execSquare x s
  | .sawtooth x => Sys2Proof.Machine.execSawtooth x s
  | .openStream a => Sys2Proof.Machine.execOpenStream a s
  | .push r => Sys2Proof.Machine.execPush r s
  | .fill p => Sys2Proof.Machine.execFill p s
  | .closeStream => Sys2Proof.Machine.execCloseStream s
  | .press n t => Sys2Proof.Machine.execPress n t s
  | .release n t => Sys2Proof.Machine.execRelease n t s
  | .deactivate n => Sys2Proof.Machine.execDeactivate n s
  | .ads l => Sys2Proof.Machine.execAds l s
  | .env n t => Sys2Proof.Machine.execEnv n t s
  | .freq n => Sys2Proof.Machine.execFreq n s
  | .osc x => Sys2Proof.Machine.execOsc x s
  | .ingest => Sys2Proof.Machine.execIngest s
  | .frame k => Sys2Proof.Machine.execFrame k s

end Sys2Proof.Machine
end

