-- ==== Sys2Proof/Machine/Sequencer.lean ====
section
/-! DEFINITION. The micro-steps of the engine (45 R151) and the moves of the environment: what one step does. -/

namespace Sys2Proof.Machine

/-- One micro-step of the engine. Ready: "Between two FILLs the engine does nothing" (60 R175). Ingesting: one
EvqTryPop, the record fetched, decoded and performed, or the queue found empty. Rendering: one FRAME. -/
def engineStep (s : State) : Answer :=
  match s.seq with
  | .ready => .next s
  | .ingesting frames =>
    match s.evqTryPop with
    | none => .next { s with seq := seqAfterDrain frames }
    | some (r, rest) => exec (decodeRecord r) rest
  | .rendering k frames =>
    match exec (.frame k) s with
    | .next u => .next { u with seq := seqAfterFrame k frames }
    | .fault f => .fault f
    | .refused r => .refused r

/-- One move of the environment or one turn of the engine (70 R221, 45 R151). -/
def moveStep (m : Move) (s : State) : Answer :=
  match m with
  | .perform i => exec i s
  | .request frames => s.acceptFill frames
  | .engine => engineStep s
  | .hangUp => .next { s with chan := .closed }

/-- The next move is the head of the script; with no move left the engine has its turn (log 9). -/
def nextStep (s : State) : Answer :=
  match s.script with
  | [] => engineStep s
  | m :: rest => moveStep m { s with script := rest }

/-- The sequencer in which the next micro-step fetches a record: Ingesting, with its own request if one is running. -/
def fetchSeq : Seq → Seq
  | .ready => .ingesting 0
  | .ingesting frames => .ingesting frames
  | .rendering _ _ => .ingesting 0

/-- `s` with an event record where the next micro-step fetches it: at the head of EVQ, the sequencer Ingesting, the
engine to move. -/
def State.withRecord (s : State) (r : Record) : State :=
  { s with evq := r :: s.evq, seq := fetchSeq s.seq, script := .engine :: s.script }

/-- `s` with an operation that no record holds as the next move. -/
def State.withMove (s : State) (i : Instr) : State :=
  { s with script := .perform i :: s.script }

end Sys2Proof.Machine
end

