-- ==== Sys2Proof/Machine/Step.lean ====
section
/-! DEFINITION. One step of the machine, and the placing of one operation where the next step takes it. -/

namespace Sys2Proof.Machine

/-- One step: one move of the environment or one micro-step of the engine. -/
def step (s : State) : Host.Outcome State Fault Refusal := nextStep s

/-- `s` with the operation of an opcode-table word where `step` takes its next one (log 9, log 21): a record (24 bits)
at the head of EVQ with the engine about to fetch it; a WAVE selector as the next move. -/
def State.withFetchWord (s : State) (nbits w : Nat) : State :=
  if nbits = 8 * Config.recordBytes then s.withRecord (Record.ofWord w)
  else
    match decodeTableWord nbits w with
    | some i => s.withMove i
    | none => s

end Sys2Proof.Machine
end

