-- ==== Sys2Proof/Machine/RealValue.lean ====
section
/-! DEFINITION. The rules' own real numbers (00 R8): the formulas of the spec over ℝ, for every real argument, and the real that each of the model's exact numbers stands for. Nothing here runs; statements compare what runs with these formulas. -/

namespace Sys2Proof

namespace Machine

/-- The Euclidean modulo `a - m * floor(a / m)` (42 R124, 93 G4). -/
noncomputable def emod (a m : ℝ) : ℝ := a - m * (⌊a / m⌋ : ℝ)

/-- `sin(x)` (42 R121). -/
noncomputable def sineFn (x : ℝ) : ℝ := Real.sin x

/-- `asin(sin(x)) / (π / 2)`, with the principal inverse sine (42 R122, 93 G2). -/
noncomputable def triangleFn (x : ℝ) : ℝ := Real.arcsin (Real.sin x) / (Real.pi / 2)

/-- `1 if sin(x) >= 0 else -1` (42 R123). -/
noncomputable def squareFn (x : ℝ) : ℝ := if 0 ≤ Real.sin x then 1 else -1

/-- `emod(x / (2π), 2) - 1` (42 R124). -/
noncomputable def sawtoothFn (x : ℝ) : ℝ := emod (x / (2 * Real.pi)) 2 - 1

end Machine

/-- The function of the oscillator bank that WAVE names, on every real phase (42 R125). -/
noncomputable def Wave.fn (w : Wave) : ℝ → ℝ :=
  match w with
  | .sine => Machine.sineFn
  | .triangle => Machine.triangleFn
  | .square => Machine.squareFn
  | .sawtooth => Machine.sawtoothFn

/-- The angle in radians. -/
noncomputable def Phase.toReal : Phase → ℝ
  | .turns q m => 2 * Real.pi * (q.toReal * rootReal m.val)
  | .radians x => x.toReal

/-- The real a base is. -/
noncomputable def Base.toReal : Base → ℝ
  | .root m => rootReal m.val
  | .wave w x => w.fn x.toReal

/-- The real a number is: the sum of its multiples. -/
noncomputable def ExactNum.toReal (n : ExactNum) : ℝ :=
  (n.terms.map fun t => t.2.toReal * t.1.toReal).sum

namespace Machine

/-- `ADS(l)` over the reals (41 R111). -/
noncomputable def adsReal (c : Cfg) (l : ℝ) : ℝ :=
  if l ≤ c.attack.toReal then l / c.attack.toReal
  else if l ≤ c.attack.toReal + c.decay.toReal then
    1 - ((l - c.attack.toReal) / c.decay.toReal) * (1 - c.sustain.toReal)
  else c.sustain.toReal

/-- `(t - since) / R` over the reals (41 R112). -/
noncomputable def secondsReal (c : Cfg) (t since : Nat) : ℝ := ((t : ℝ) - (since : ℝ)) / (c.rate : ℝ)

/-- What `ENV` returns for an active note at time `t`, over the reals (41 R112). -/
noncomputable def envReal (c : Cfg) (n : Note) (t : Nat) : ℝ :=
  if n.pressed then adsReal c (secondsReal c t n.tickPressed)
  else if (1 - secondsReal c t n.tickReleased / c.release.toReal) * adsReal c (secondsReal c t n.tickPressed) ≤ (Config.floor : ℝ)
  then 0
  else (1 - secondsReal c t n.tickReleased / c.release.toReal) * adsReal c (secondsReal c t n.tickPressed)

/-- `FREQ(i)` over the reals (43 R130). -/
noncomputable def freqReal (c : Cfg) (i : NoteIx) : ℝ :=
  c.referenceFrequency.toReal * (2 : ℝ) ^ (((i.val : ℝ) - (Config.refIndex : ℝ)) / (Config.semitones : ℝ))

/-- The phase of note `i` in frame `t` over the reals (45 R152). -/
noncomputable def phaseReal (c : Cfg) (t : Nat) (i : NoteIx) : ℝ :=
  2 * Real.pi * ((t : ℝ) / (c.rate : ℝ)) * freqReal c i

/-- The amplitude of the frame at time `t`: the sum over the active notes of `OSC(phase) * ENV(i, t) * master_volume` (45 R152). -/
noncomputable def amplitudeReal (s : State) (t : Nat) : ℝ :=
  ∑ i : NoteIx,
    if (s.note i).active then
      s.cfg.wave.fn (phaseReal s.cfg t i) * envReal s.cfg (s.note i) t * s.cfg.masterVolume.toReal
    else 0

end Machine

end Sys2Proof
end

