-- ==== Sys2Proof/Safety.lean ====
section
/-! DEFINITION. What counts as a safe run: the premises of 70 R222 and the invariant of the states a run reaches. -/

namespace Sys2Proof.Machine

/-- The premise `Opened` of 70 R222 (a): a stream exists and its configuration is legal. -/
abbrev State.Opened (s : State) : Prop := s.stream = .opened ∧ s.cfg.legal = true

/-- The premise `Ready` of 70 R222 (d). -/
abbrev State.IsReady (s : State) : Prop := s.seq = .ready

/-- There is room in the sample counter for `n` more frames: the premise `NoFault` of 70 R222 (b), as a condition on the state. -/
abbrev State.HasRoomFor (s : State) (n : Nat) : Prop := s.tickFits (s.tick + n) = true

/-- The operations the host and the producer perform at the engine's boundary (70 R221). -/
def atBoundary : Instr → Bool
  | .openStream _ => true
  | .push _ => true
  | .fill _ => true
  | .closeStream => true
  | .noteOn _ _ => false
  | .noteOff _ _ => false
  | .evOther _ _ _ => false
  | .sine _ => false
  | .triangle _ => false
  | .square _ => false
  | .sawtooth _ => false
  | .press _ _ => false
  | .release _ _ => false
  | .deactivate _ => false
  | .ads _ => false
  | .env _ _ => false
  | .freq _ => false
  | .osc _ => false
  | .ingest => false
  | .frame _ => false

/-- A move the host, the producer or the engine makes in a run (70 R221); a test bench's is none. -/
def Move.inRun : Move → Bool
  | .perform i => atBoundary i
  | .request _ => true
  | .engine => true
  | .hangUp => true

/-- What every reachable note satisfies at sample count `tick`: pressed implies active (10 R28), no timestamp lies in
the future, and a released sounding note was pressed no later than it was released (10 R29). -/
abbrev Note.Sound (tick : Nat) (n : Note) : Prop :=
  (n.pressed = true → n.active = true) ∧ n.tickPressed ≤ tick ∧ n.tickReleased ≤ tick
    ∧ (n.pressed = false → n.active = true → n.tickPressed ≤ n.tickReleased)

/-- A report entry that the engine can make: `InvalidNoteIndex` with an index of 128 or more (60 R171, R174). -/
def ReportEntry.sound (e : ReportEntry) : Bool :=
  e.condition == .invalidNoteIndex && decide (Config.notes ≤ e.index.toNat)

/-- A sequencer state that a run reaches: a frame index below the frame count (10 R26). -/
def Seq.sound : Seq → Bool
  | .ready => true
  | .ingesting _ => true
  | .rendering k frames => decide (k < frames)

/-- The invariant of a run: sound notes, a legal configuration while a stream is open, no FILL without a stream, a
sound sequencer and report, OUT in its canonical form, and only moves of a run still to come. -/
structure State.Inv (s : State) : Prop where
  notes : ∀ i : NoteIx, (s.note i).Sound s.tick
  config : s.stream = .opened → s.cfg.legal = true
  idle : s.stream = .absent → s.seq = .ready
  seq : s.seq.sound = true
  report : s.report.all ReportEntry.sound = true
  out : Memory.wf s.out = true
  script : s.script.all Move.inRun = true

end Sys2Proof.Machine
end

