-- ==== Sys2Proof/Certificates/Slice0/Obligations.lean ====
section
/-! DEFINITION. The statements for the provers. Each docstring says which rules of the spec a statement formalises. -/

open Sys2Proof Sys2Proof.Machine

/-! ### Encodings -/

/-- 30 R85 to R88: on the format EV3, decoding undoes encoding for every well-formed operation at every operand, and
encoding undoes decoding for every one of the 2^24 records; the decoder over bytes takes exactly three. -/
def Obligations.EventRecordRoundTrip : Prop :=
  (∀ (i : Instr) (r : Record), i.wf = true → encode i = some r → decodeRecord r = i) ∧
  (∀ r : Record, (decodeRecord r).wf = true ∧ encode (decodeRecord r) = some r) ∧
  (∀ (r : Record) (rest : List Byte), decode (r.bytes ++ rest) = .ok (decodeRecord r, rest))

/-- 30 R85: the status byte alone, compared whole with 144 and then with 128, decides the row. -/
def Obligations.StatusByteDecides : Prop :=
  ∀ status n v : Byte,
    decodeRecord ⟨status, n, v⟩ =
      if status = 144#8 then .noteOn n v
      else if status = 128#8 then .noteOff n v
      else .evOther status n v

/-- 95 V-DEC-1, 2, 5, 7, 9, 10 and 12: words written out from the encodings of R86 to R88 (and R89 for WAVE) decode to the
operation they stand for. -/
def Obligations.SpecWordsDecode : Prop :=
  decodeTableWord 24 0x90457F = some (.noteOn 69#8 127#8) ∧
  decodeTableWord 24 0x804500 = some (.noteOff 69#8 0#8) ∧
  decodeTableWord 24 0x908040 = some (.noteOn 128#8 64#8) ∧
  decodeTableWord 24 0x91457F = some (.evOther 145#8 69#8 127#8) ∧
  decodeTableWord 24 0xB0C800 = some (.evOther 176#8 200#8 0#8) ∧
  decodeTableWord 24 0x000000 = some (.evOther 0#8 0#8 0#8) ∧
  decodeTableWord 24 0x10457F = some (.evOther 16#8 69#8 127#8) ∧
  decodeTableWord 8 0 = some (.sine (.turns (.rat 0) 0)) ∧
  decodeTableWord 8 1 = some (.triangle (.turns (.rat 0) 0)) ∧
  decodeTableWord 8 2 = some (.square (.turns (.rat 0) 0)) ∧
  decodeTableWord 8 3 = some (.sawtooth (.turns (.rat 0) 0))

/-- 30 R89 and 00 R9: the numbering of WAVE and the word of a record lose nothing. -/
def Obligations.WaveFieldAndWordRoundTrip : Prop :=
  (∀ w : Wave, Wave.ofCode w.code = w) ∧ (∀ c : BitVec 2, (Wave.ofCode c).code = c) ∧
  (∀ r : Record, Record.ofWord r.toWord = r)

/-! ### Steps -/

/-- A step runs the decoded operation: the record at the head of EVQ while the sequencer is Ingesting and the engine has its
turn (45 R151), and the operation of the next move. What the step does besides: it removes the record and the move. -/
def Obligations.StepRunsTheDecodedOperation : Prop :=
  (∀ (s : State) (i : Instr) (rest : List Move), s.script = .perform i :: rest →
    step s = exec i { s with script := rest }) ∧
  (∀ (s : State) (frames : Nat) (r : Record) (q : List Record) (rest : List Move),
    s.seq = .ingesting frames → s.evq = r :: q → s.script = .engine :: rest →
    step s = exec (decodeRecord r) { s with evq := q, script := rest }) ∧
  (∀ (s : State) (frames : Nat) (r : Record) (q : List Record),
    s.seq = .ingesting frames → s.evq = r :: q → s.script = [] →
    step s = exec (decodeRecord r) { s with evq := q })

/-- The other micro-steps of a FILL (45 R151): the request, and with the engine to move (its turn is the next move, or no move is
left) the queue found empty (R136), a frame that completes or overflows, and a Ready engine (60 R175). The script and the
unwritten buffer are the model's choice (log 9, log 18). -/
def Obligations.FillMicroSteps : Prop :=
  (∀ (s : State) (frames : Nat) (rest : List Move), s.Opened → s.IsReady → s.script = .request frames :: rest →
    step s = .next { s with seq := .ingesting frames, out := [], script := rest }) ∧
  ∀ (s : State) (rest : List Move), s.script = .engine :: rest ∨ (s.script = [] ∧ rest = []) →
    (∀ frames : Nat, s.seq = .ingesting frames → s.evq = [] →
      step s = .next { s with seq := if frames = 0 then .ready else .rendering 0 frames, script := rest }) ∧
    (∀ (u : State) (k frames : Nat), s.seq = .rendering k frames → exec (.frame k) { s with script := rest } = .next u →
      step s = .next { u with seq := if k + 1 < frames then .rendering (k + 1) frames else .ready }) ∧
    (∀ k frames : Nat, s.seq = .rendering k frames → exec (.frame k) { s with script := rest } = .fault .tickOverflow →
      step s = .fault .tickOverflow) ∧
    (s.seq = .ready → step s = .next { s with script := rest })

/-- The operation of an opcode-table word, placed by `withFetchWord`, is what the next step runs (the model's own placing,
log 9 and log 21). -/
def Obligations.PlacedWordRunsNext : Prop :=
  (∀ (s : State) (w : Nat),
    decodeTableWord 24 w = some (decodeRecord (Record.ofWord w)) ∧
    step (s.withFetchWord 24 w) = exec (decodeRecord (Record.ofWord w)) { s with seq := fetchSeq s.seq }) ∧
  (∀ (s : State) (w : Nat) (i : Instr), decodeTableWord 8 w = some i → step (s.withFetchWord 8 w) = exec i s)

/-- 45 R151 and R150: a FILL taken in its micro-steps, with no other move between them, ends exactly as the FILL performed whole,
whether it ends in a state or in the overflow fault. The script of moves and the whole FILL that an overflow stops are the
model's choice (log 9, log 20). -/
def Obligations.MicroStepsMakeTheWholeFill : Prop :=
  ∀ (s : State) (frames : Nat) (rest : List Move), s.Opened → s.IsReady →
    s.script = .request frames :: (List.replicate (s.evq.length + 1 + frames) .engine ++ rest) →
    Host.Core.run Sys2Proof.core (s.evq.length + frames + 2) s = exec (.fill frames) { s with script := rest }

/-- 20 R65: a record pushed before the queue is found empty is applied in this FILL, one pushed after it stays for the next;
the order of the two moves decides, and both are runs of the model. -/
def Obligations.PushDuringDrainTakenNowOrNext : Prop :=
  ∀ (s : State) (r : Record) (frames : Nat) (rest : List Move), s.Opened → s.evqHasRoom = true →
    s.seq = .ingesting frames → s.evq = [] →
    (s.script = .perform (.push r) :: .engine :: rest →
      Host.Core.run Sys2Proof.core 2 s = exec (decodeRecord r) { s with script := rest, ret := .accepted true }) ∧
    (s.script = .engine :: .perform (.push r) :: rest →
      Host.Core.run Sys2Proof.core 2 s
        = .next { s with
            seq := if frames = 0 then .ready else .rendering 0 frames
            evq := [r], script := rest, ret := .accepted true })

/-! ### The note state machine -/

/-- 40 R101, PRESS whole: an index of 128 or more is reported and nothing is written; a pressed note is left alone; any other
note gets `pressed`, `active` and `tick_pressed`. -/
def Obligations.PressResult : Prop :=
  ∀ (s : State) (i : Byte) (t : Nat), s.Opened →
    ∃ u : State, exec (.press i t) s = .next u ∧
      (128 ≤ i.toNat → u = { s with report := s.report ++ [⟨.invalidNoteIndex, i, t⟩] }) ∧
      ∀ ix : NoteIx, ix.val = i.toNat →
        ((s.note ix).pressed = true → u = s) ∧
        ((s.note ix).pressed = false →
          u = { s with notes := s.notes.set ix.val ⟨true, true, t, (s.note ix).tickReleased⟩ })

/-- 40 R102, RELEASE whole: it writes `pressed` and `tick_released` in every state of the note, and never `active`. -/
def Obligations.ReleaseResult : Prop :=
  ∀ (s : State) (i : Byte) (t : Nat), s.Opened →
    ∃ u : State, exec (.release i t) s = .next u ∧
      (128 ≤ i.toNat → u = { s with report := s.report ++ [⟨.invalidNoteIndex, i, t⟩] }) ∧
      ∀ ix : NoteIx, ix.val = i.toNat →
        u = { s with notes := s.notes.set ix.val ⟨false, (s.note ix).active, (s.note ix).tickPressed, t⟩ }

/-- 40 R103, DEACTIVATE: `active` is cleared and nothing else written. The time in the report entry of an index of 128 or more is
the model's choice (log 19). -/
def Obligations.DeactivateResult : Prop :=
  ∀ (s : State) (i : Byte), s.Opened →
    ∃ u : State, exec (.deactivate i) s = .next u ∧
      (128 ≤ i.toNat → u = { s with report := s.report ++ [⟨.invalidNoteIndex, i, s.tick⟩] }) ∧
      ∀ ix : NoteIx, ix.val = i.toNat →
        u = { s with
              notes := s.notes.set ix.val
                ⟨(s.note ix).pressed, false, (s.note ix).tickPressed, (s.note ix).tickReleased⟩ }

/-- 40 R104: the whole transition relation of a note in range, with the timestamps. -/
def Obligations.NoteTransitionRelation : Prop :=
  ∀ (s : State) (i : Byte) (ix : NoteIx) (t : Nat), s.Opened → ix.val = i.toNat →
    (∃ u, exec (.press i t) s = .next u ∧
      ((s.note ix).state = .idle ∨ (s.note ix).state = .releasedActive →
        (u.note ix).state = .pressed ∧ (u.note ix).tickPressed = t ∧
          (u.note ix).tickReleased = (s.note ix).tickReleased) ∧
      ((s.note ix).state = .pressed → u.note ix = s.note ix)) ∧
    (∃ u, exec (.release i t) s = .next u ∧
      (u.note ix).tickReleased = t ∧ (u.note ix).tickPressed = (s.note ix).tickPressed ∧
      ((s.note ix).state = .idle → (u.note ix).state = .idle) ∧
      ((s.note ix).state = .pressed ∨ (s.note ix).state = .releasedActive →
        (u.note ix).state = .releasedActive)) ∧
    (∃ u, exec (.env ix t) s = .next u ∧
      ((s.note ix).state = .idle ∨ (s.note ix).state = .pressed → u.note ix = s.note ix) ∧
      ((s.note ix).state = .releasedActive →
        ((releaseValue s.cfg (s.note ix) t).toReal ≤ Config.floor →
          (u.note ix).state = .idle ∧ (u.note ix).tickPressed = (s.note ix).tickPressed ∧
            (u.note ix).tickReleased = (s.note ix).tickReleased) ∧
        (Config.floor < (releaseValue s.cfg (s.note ix) t).toReal → u.note ix = s.note ix)))

/-- The frame of PRESS, RELEASE, DEACTIVATE, NOTE_ON, NOTE_OFF and EV_OTHER (10 R21, 20 R51, 44 R139): only the named note and
the report can change; every other note, the counter, the configuration, the queue, the sequencer and every element of OUT
are as before; EV_OTHER changes nothing. -/
def Obligations.NoteOperationsFrame : Prop :=
  ∀ (s u : State) (i v st : Byte) (t : Nat),
    (exec (.press i t) s = .next u ∨ exec (.release i t) s = .next u ∨ exec (.deactivate i) s = .next u ∨
      exec (.noteOn i v) s = .next u ∨ exec (.noteOff i v) s = .next u ∨ exec (.evOther st i v) s = .next u) →
    (∀ j : NoteIx, j.val ≠ i.toNat → u.note j = s.note j) ∧
    u = { s with notes := u.notes, report := u.report } ∧
    (∀ a : Nat, u.outRead a = s.outRead a) ∧
    (i.toNat < 128 → u.report = s.report) ∧
    (128 ≤ i.toNat → u.notes = s.notes) ∧
    (exec (.evOther st i v) s = .next u → u = s)

/-! ### Ingestion -/

/-- 44 R137, R138, R139: NOTE_ON is PRESS and NOTE_OFF is RELEASE of the record's index at the present `tick`, whatever the
velocity; EV_OTHER does nothing and raises nothing, whatever its bytes hold. Each completes on every opened engine. -/
def Obligations.RecordOperationsResult : Prop :=
  ∀ (s : State) (status n v : Byte), s.Opened →
    (∃ u : State, exec (.noteOn n v) s = .next u ∧ exec (.press n s.tick) s = .next u) ∧
    (∃ u : State, exec (.noteOff n v) s = .next u ∧ exec (.release n s.tick) s = .next u) ∧
    exec (.evOther status n v) s = .next s

/-- 44 R135: INGEST applies the records in queue order, each to the Note table as the earlier ones left it, all at the one time
`tick`, until the queue is empty; it completes and touches only the queue, the notes and the report. -/
def Obligations.IngestAppliesRecordsInOrder : Prop :=
  (∀ s : State, s.Opened → s.evq = [] → exec .ingest s = .next s) ∧
  (∀ (s : State) (r : Record) (q : List Record), s.Opened → s.evq = r :: q →
    ∃ u : State, exec (decodeRecord r) { s with evq := q } = .next u ∧ u.tick = s.tick ∧
      exec .ingest s = exec .ingest u) ∧
  (∀ s : State, s.Opened → ∃ u : State, exec .ingest s = .next u ∧ u.evq = [] ∧
    u = { s with evq := [], notes := u.notes, report := u.report } ∧ ∀ a : Nat, u.outRead a = s.outRead a)

/-- A record that raises `InvalidNoteIndex` (60 R170). -/
def Sys2Proof.Record.offends (r : Record) : Bool :=
  (r.status == 144#8 || r.status == 128#8) && decide (128 ≤ r.noteIndex.toNat)

/-- 60 R179, R171: after any number of conditions the engine is in the state it would have reached had the offending records never
been in the queue, apart from the report, which gets one entry for each of them, in order, with the ingestion time. -/
def Obligations.OffendingRecordsLeaveOnlyTheReport : Prop :=
  ∀ s : State, s.Opened →
    ∃ u w : State, exec .ingest s = .next u ∧
      exec .ingest { s with evq := s.evq.filter fun r => !r.offends } = .next w ∧
      w.report = s.report ∧
      u = { w with
            report := s.report ++
              (s.evq.filter Record.offends).map fun r => ⟨.invalidNoteIndex, r.noteIndex, s.tick⟩ }

/-- 30 R83: the engine ignores `velocity` for every value: no record's velocity changes what an ingestion does. -/
def Obligations.VelocityIsNeverRead : Prop :=
  ∀ (s : State) (velocity : Record → Byte),
    exec .ingest { s with evq := s.evq.map fun r => { r with velocity := velocity r } } = exec .ingest s

/-! ### The oscillator bank -/

/-- 42 R121: SINE hands over a number that is the sine of the phase, for every phase, and changes nothing else. -/
def Obligations.SineResult : Prop :=
  ∀ (s : State) (x : Phase), ∃ v : ExactNum,
    exec (.sine x) s = .next { s with ret := .value v } ∧ v.toReal = Real.sin x.toReal

/-- 42 R122: TRIANGLE hands over `asin(sin(x)) / (π / 2)`, and that function has the piecewise linear form in turns. -/
def Obligations.TriangleResult : Prop :=
  (∀ (s : State) (x : Phase), ∃ v : ExactNum,
    exec (.triangle x) s = .next { s with ret := .value v } ∧
      v.toReal = Real.arcsin (Real.sin x.toReal) / (Real.pi / 2)) ∧
  (∀ x u : ℝ, u = x / (2 * Real.pi) - (⌊x / (2 * Real.pi)⌋ : ℝ) →
    Real.arcsin (Real.sin x) / (Real.pi / 2) =
      if u ≤ 1 / 4 then 4 * u else if u ≤ 3 / 4 then 2 - 4 * u else 4 * u - 4)

/-- 42 R123: SQUARE hands over 1 where `sin(x) >= 0`, at the zeros too, and -1 elsewhere; in turns, 1 for `u <= 1/2`. -/
def Obligations.SquareResult : Prop :=
  (∀ (s : State) (x : Phase), ∃ v : ExactNum,
    exec (.square x) s = .next { s with ret := .value v } ∧
      v.toReal = if 0 ≤ Real.sin x.toReal then 1 else -1) ∧
  (∀ x u : ℝ, u = x / (2 * Real.pi) - (⌊x / (2 * Real.pi)⌋ : ℝ) →
    (if 0 ≤ Real.sin x then (1 : ℝ) else -1) = if u ≤ 1 / 2 then 1 else -1)

/-- 42 R124: SAWTOOTH hands over `emod(x / (2π), 2) - 1`; its values lie in [-1, 1) and its period is `4π`. -/
def Obligations.SawtoothResult : Prop :=
  (∀ (s : State) (x : Phase), ∃ v : ExactNum,
    exec (.sawtooth x) s = .next { s with ret := .value v } ∧
      v.toReal = (x.toReal / (2 * Real.pi) - 2 * (⌊x.toReal / (2 * Real.pi) / 2⌋ : ℝ)) - 1) ∧
  (∀ x : ℝ, -1 ≤ sawtoothFn x ∧ sawtoothFn x < 1 ∧ sawtoothFn (x + 4 * Real.pi) = sawtoothFn x)

/-- 42 R125: OSC hands over the value of the function that the configuration's WAVE selects. -/
def Obligations.OscResult : Prop :=
  ∀ (s : State) (x : Phase), s.Opened → ∃ v : ExactNum,
    exec (.osc x) s = .next { s with ret := .value v } ∧
      v.toReal =
        match s.cfg.wave with
        | .sine => sineFn x.toReal
        | .triangle => triangleFn x.toReal
        | .square => squareFn x.toReal
        | .sawtooth => sawtoothFn x.toReal

/-- 42 R126 and R120: every oscillator value lies in [-1, 1], for every real phase, whatever WAVE is. -/
def Obligations.OscillatorsAreBounded : Prop :=
  (∀ (w : Wave) (x : ℝ), -1 ≤ w.fn x ∧ w.fn x ≤ 1) ∧
  (∀ (s u : State) (x : Phase) (v : ExactNum), exec (.osc x) s = .next u → u.ret = .value v →
    -1 ≤ v.toReal ∧ v.toReal ≤ 1)

/-- The frame of the operations that only compute a value: SINE, TRIANGLE, SQUARE, SAWTOOTH, OSC, ADS and FREQ change nothing
of the engine; only the value handed over, the model's own field, is new (42 R120, 41 R111, 43 R130; log 8). -/
def Obligations.ValueOperationsFrame : Prop :=
  ∀ (s u : State) (x : Phase) (l : Scalar) (i : NoteIx),
    (exec (.sine x) s = .next u ∨ exec (.triangle x) s = .next u ∨ exec (.square x) s = .next u ∨
      exec (.sawtooth x) s = .next u ∨ exec (.osc x) s = .next u ∨ exec (.ads l) s = .next u ∨
      exec (.freq i) s = .next u) →
    u = { s with ret := u.ret } ∧ ∀ a : Nat, u.outRead a = s.outRead a

/-! ### Frequency -/

/-- 43 R130: FREQ hands over `reference_frequency * 2 ^ ((i - 69) / 12)`. -/
def Obligations.FreqResult : Prop :=
  ∀ (s : State) (i : NoteIx), s.Opened → ∃ v : ExactNum,
    exec (.freq i) s = .next { s with ret := .value v } ∧
      v.toReal = s.cfg.referenceFrequency.toReal * (2 : ℝ) ^ (((i.val : ℝ) - 69) / 12)

/-- 43 R130 corner cases (a), (b) and (f): note 69 sounds at the reference exactly, an octave is an exact factor of 2, and the
frequency rises strictly with the index. For a rational reference the numbers are equal as data too. -/
def Obligations.FreqOctavesAreExact : Prop :=
  ∀ s : State, s.Opened →
    (∃ v : ExactNum, exec (.freq 69) s = .next { s with ret := .value v } ∧
      v.toReal = s.cfg.referenceFrequency.toReal) ∧
    (∀ (i j : NoteIx) (v w : ExactNum), j.val = i.val + 12 → exec (.freq i) s = .next { s with ret := .value v } →
      exec (.freq j) s = .next { s with ret := .value w } → w.toReal = 2 * v.toReal) ∧
    (∀ q : Rat, s.cfg.referenceFrequency = .rat q →
      exec (.freq 69) s = .next { s with ret := .value (ExactNum.ofRat q) } ∧
      ∀ (i j : NoteIx) (v : ExactNum), j.val = i.val + 12 → exec (.freq i) s = .next { s with ret := .value v } →
        exec (.freq j) s = .next { s with ret := .value (v.scale (.rat 2)) }) ∧
    (∀ (i j : NoteIx) (v w : ExactNum), i.val < j.val → exec (.freq i) s = .next { s with ret := .value v } →
      exec (.freq j) s = .next { s with ret := .value w } → v.toReal < w.toReal)

/-! ### The envelope -/

/-- 41 R111: ADS hands over the attack, decay and sustain curve at the given lifetime. For a negative lifetime, which the rule does
not name, the formula as written is the model's inference (log 5). -/
def Obligations.AdsResult : Prop :=
  ∀ (s : State) (l : Scalar), s.Opened → ∃ v : ExactNum,
    exec (.ads l) s = .next { s with ret := .value v } ∧
      v.toReal =
        if l.toReal ≤ s.cfg.attack.toReal then l.toReal / s.cfg.attack.toReal
        else if l.toReal ≤ s.cfg.attack.toReal + s.cfg.decay.toReal then
          1 - ((l.toReal - s.cfg.attack.toReal) / s.cfg.decay.toReal) * (1 - s.cfg.sustain.toReal)
        else s.cfg.sustain.toReal

/-- 41 R111 corner cases (a) to (c), (e) and (g), and R116: the curve is 0 at lifetime 0 and 1 at `attack`, is `sustain` at the end of
the decay when `decay > 0` and after it, and lies in [0, 1] for every lifetime that is not negative. -/
def Obligations.AdsCurveShape : Prop :=
  ∀ c : Cfg, c.legal = true →
    (∀ l : Scalar, l.toReal = 0 → (adsAt c l).toReal = 0) ∧
    (∀ l : Scalar, l.toReal = c.attack.toReal → (adsAt c l).toReal = 1) ∧
    (0 < c.decay.toReal → ∀ l : Scalar, l.toReal = c.attack.toReal + c.decay.toReal →
      (adsAt c l).toReal = c.sustain.toReal) ∧
    (∀ l : Scalar, c.attack.toReal + c.decay.toReal < l.toReal → adsAt c l = c.sustain) ∧
    (c.sustain.toReal = 1 → ∀ l : Scalar, c.attack.toReal ≤ l.toReal → (adsAt c l).toReal = 1) ∧
    (∀ l : Scalar, 0 ≤ l.toReal → 0 ≤ (adsAt c l).toReal ∧ (adsAt c l).toReal ≤ 1)

/-- 41 R112: what ENV hands over and writes: the ADS value for a held note, with nothing written; for a released note the ramp
times the moving ADS value, or 0 and `active` cleared at or below the floor; 0 and nothing written for an inactive note (D24).
For a time before a timestamp, which the rule does not name, the signed difference is the model's inference (log 6). -/
def Obligations.EnvResult : Prop :=
  ∀ (s : State) (i : NoteIx) (t : Nat), s.Opened →
    ∃ v : ExactNum,
      ((s.note i).active = false →
        exec (.env i t) s = .next { s with ret := .value v } ∧ v.toReal = 0) ∧
      ((s.note i).active = true → (s.note i).pressed = true →
        exec (.env i t) s = .next { s with ret := .value v } ∧
          v.toReal = adsReal s.cfg (((t : ℝ) - (s.note i).tickPressed) / s.cfg.rate)) ∧
      ((s.note i).active = true → (s.note i).pressed = false →
        ∀ rv : ℝ,
          rv = (1 - ((t : ℝ) - (s.note i).tickReleased) / s.cfg.rate / s.cfg.release.toReal) *
            adsReal s.cfg (((t : ℝ) - (s.note i).tickPressed) / s.cfg.rate) →
          (rv ≤ 1 / 10000 →
            v.toReal = 0 ∧
            exec (.env i t) s = .next { s with
              ret := .value v
              notes := s.notes.set i.val ⟨false, false, (s.note i).tickPressed, (s.note i).tickReleased⟩ }) ∧
          (1 / 10000 < rv →
            v.toReal = rv ∧ exec (.env i t) s = .next { s with ret := .value v }))

/-- 41 R113: the value ENV hands over lies in [0, 1] for a note whose timestamps do not lie in the future. -/
def Obligations.EnvelopeStaysInUnitInterval : Prop :=
  ∀ (s u : State) (i : NoteIx) (t : Nat) (v : ExactNum), (s.note i).tickPressed ≤ t → (s.note i).tickReleased ≤ t →
    exec (.env i t) s = .next u → u.ret = .value v → 0 ≤ v.toReal ∧ v.toReal ≤ 1

/-- 90 C1, 41 R114: after a release that comes at a lifetime of `attack` or more, the envelope never rises. -/
def Obligations.LateReleaseTailNeverRises : Prop :=
  ∀ (c : Cfg) (n : Note) (t t' : Nat), c.legal = true → n.pressed = false →
    n.tickPressed ≤ n.tickReleased → n.tickReleased ≤ t → t ≤ t' →
    c.attack.toReal * c.rate ≤ ((n.tickReleased - n.tickPressed : Nat) : ℝ) →
    (envValue c n t').toReal ≤ (envValue c n t).toReal

/-- 41 R115: a released sounding note is out of the mix after any frame whose `tick` is at least `tick_released + release * R`, and that
frame runs. -/
def Obligations.ReleaseTailEnds : Prop :=
  ∀ (s : State) (i : NoteIx) (k : Nat), s.Opened → s.HasRoomFor 1 → (s.note i).tickPressed ≤ s.tick →
    (s.note i).pressed = false → ((s.note i).tickReleased : ℝ) + s.cfg.release.toReal * s.cfg.rate ≤ (s.tick : ℝ) →
    ∃ u : State, exec (.frame k) s = .next u ∧ (u.note i).active = false

/-- 41 R112 corner case (b), 40 R104: a held note is never taken out of the mix, by ENV or by a frame, however silent it is. -/
def Obligations.HeldNoteStaysInTheMix : Prop :=
  ∀ (s u : State) (i j : NoteIx) (t k : Nat), (s.note i).pressed = true →
    (exec (.env j t) s = .next u ∨ exec (.frame k) s = .next u) → u.note i = s.note i

/-- 70 R212, 41 R112 corner case (d): a note pressed and released in one batch is taken out of the mix in its first frame, and
until then its envelope is 0. -/
def Obligations.OnAndOffInOneBatchAreSilent : Prop :=
  ∀ (s u : State) (i : Byte) (ix : NoteIx) (v v' : Byte) (k : Nat), s.Opened → ix.val = i.toNat →
    (s.note ix).pressed = false →
    exec .ingest { s with evq := [⟨144#8, i, v⟩, ⟨128#8, i, v'⟩] } = .next u →
    envReal u.cfg (u.note ix) u.tick = 0 ∧
    ∀ w : State, exec (.frame k) u = .next w → (w.note ix).active = false

/-- The frame of ENV (41 R112): only `active` of its own note can change, and the value handed over. -/
def Obligations.EnvFrame : Prop :=
  ∀ (s u : State) (i : NoteIx) (t : Nat), exec (.env i t) s = .next u →
    u = { s with notes := u.notes, ret := u.ret } ∧
    (∀ j : NoteIx, j ≠ i → u.note j = s.note j) ∧
    u.note i = { s.note i with active := (u.note i).active } ∧
    ∀ a : Nat, u.outRead a = s.outRead a

/-! ### Render loop -/

/-- 45 R152, FRAME whole: every channel of frame `k` gets the sum over the active notes of `OSC(phase) * ENV * master_volume`, no other
element of OUT changes, `tick` grows by one, and each note is as its ENV leaves it. The element numbers k * C + ch are those of
20 R57, which takes them from general knowledge (log 7). -/
def Obligations.FrameMixesEveryActiveNote : Prop :=
  ∀ (s : State) (k : Nat), s.Opened → s.HasRoomFor 1 →
    ∃ u : State, exec (.frame k) s = .next u ∧
      u.tick = s.tick + 1 ∧
      (∀ ch : Nat, ch < s.cfg.channels → ∃ v : ExactNum,
        u.outRead (k * s.cfg.channels + ch) = some v ∧ v.toReal = amplitudeReal s s.tick) ∧
      (∀ a : Nat, (∀ ch : Nat, ch < s.cfg.channels → a ≠ k * s.cfg.channels + ch) → u.outRead a = s.outRead a) ∧
      (∀ i : NoteIx, ∃ w : State, exec (.env i s.tick) s = .next w ∧ u.note i = w.note i)

/-- The frame of FRAME and of FILL (10 R25, R30, 45 R152): FRAME writes the flags `active`, OUT and `tick` and nothing else, and in each
note only `active`; FILL writes besides these what its INGEST writes. -/
def Obligations.RenderFrame : Prop :=
  (∀ (s u : State) (k : Nat), exec (.frame k) s = .next u →
    u = { s with notes := u.notes, out := u.out, tick := u.tick } ∧
    ∀ i : NoteIx, u.note i = { s.note i with active := (u.note i).active } ∧
      ((u.note i).active = true → (s.note i).active = true)) ∧
  (∀ (s u : State) (frames : Nat), exec (.fill frames) s = .next u →
    u = { s with notes := u.notes, out := u.out, tick := u.tick, evq := [], report := u.report })

/-- 45 R155 (a), 10 R25: FRAME faults exactly when its increment of `tick` would reach 2^TICK_W. -/
def Obligations.FrameFaultsExactlyAtTickOverflow : Prop :=
  ∀ (s : State) (k : Nat), s.Opened →
    (exec (.frame k) s = .fault .tickOverflow ↔ ∃ w : Nat, s.impl.tickW = some w ∧ 2 ^ w ≤ s.tick + 1)

/-- 45 R150: a FILL of no frame is the ingestion alone, with an empty buffer; a FILL of one frame more is the FILL and then FRAME of the
next index, in order. -/
def Obligations.FillIsIngestThenFrames : Prop :=
  ∀ s : State, s.Opened → s.IsReady →
    (∃ u : State, exec .ingest s = .next u ∧ exec (.fill 0) s = .next { u with out := [] }) ∧
    ∀ (frames : Nat) (u : State), exec (.fill frames) s = .next u →
      exec (.fill (frames + 1)) s = exec (.frame frames) u

/-- 45 R150, 20 R57: a FILL of `P` frames runs to its end when `tick` has room: `tick` has grown by `P`, the queue is empty, the sequencer is
Ready, exactly the `P * C` elements of OUT are written, and all channels of a frame hold the same amplitude. -/
def Obligations.FillCompletesWithAFullBuffer : Prop :=
  ∀ (s : State) (frames : Nat), s.Opened → s.IsReady → s.HasRoomFor frames →
    ∃ u : State, exec (.fill frames) s = .next u ∧
      u.tick = s.tick + frames ∧ u.evq = [] ∧ u.seq = .ready ∧ u.Opened ∧
      (∀ a : Nat, (u.outRead a).isSome = true ↔ a < frames * s.cfg.channels) ∧
      (∀ k ch : Nat, k < frames → ch < s.cfg.channels →
        u.outRead (k * s.cfg.channels + ch) = u.outRead (k * s.cfg.channels))

/-- 20 R57: what the buffer held before the FILL has no effect. -/
def Obligations.OldBufferHasNoEffect : Prop :=
  ∀ (s : State) (frames : Nat) (old : Memory),
    exec (.fill frames) { s with out := old } = exec (.fill frames) s

/-- 45 R151, 20 R64 (b): frames touch nothing of the queue: a record pushed while a frame is rendered does not change the frame. -/
def Obligations.FramesDoNotSeeTheQueue : Prop :=
  ∀ (s u : State) (k : Nat) (q : List Record), exec (.frame k) s = .next u →
    exec (.frame k) { s with evq := q } = .next { u with evq := q }

/-! ### Host commands and reset -/

/-- 00 R7: exactly the legal configurations are accepted by OPEN where no stream is open, and any other is refused; the real fields are
any reals. 70 R200 (a), R221: where a stream is open no OPEN has a meaning (log 13). -/
def Obligations.OpenAcceptsExactlyLegalConfigurations : Prop :=
  (∀ (s : State) (a : OpenArgs), s.stream = .absent → s.IsReady →
    let legal := 0 < a.cfg.attack.toReal ∧ 0 ≤ a.cfg.decay.toReal ∧ 0 < a.cfg.release.toReal ∧
      0 ≤ a.cfg.sustain.toReal ∧ a.cfg.sustain.toReal ≤ 1 ∧ 0 < a.cfg.referenceFrequency.toReal ∧
      1 ≤ a.cfg.rate ∧ 1 ≤ a.cfg.channels
    (legal → ∃ u : State, exec (.openStream a) s = .next u ∧ u.Opened ∧ u.cfg = a.cfg) ∧
    (¬ legal → exec (.openStream a) s = .refused .illegalConfig)) ∧
  ∀ (s : State) (a : OpenArgs), s.stream = .opened → s.IsReady → exec (.openStream a) s = .refused .streamOpen

/-- 70 R200, 10 R35: what OPEN leaves: `tick` 0, every note Idle with timestamps 0, the configuration with the document's defaults for the
fields not given, the sequencer Ready, the report empty, the queue as it was. OUT, the handed-over value and the channel, left as it
was, are the model's choice (log 8, log 15, log 18). -/
def Obligations.OpenResult : Prop :=
  ∀ (s : State) (a : OpenArgs), s.stream = .absent → s.IsReady → a.cfg.legal = true →
    exec (.openStream a) s = .next
      { s with
        stream := .opened, tick := 0, notes := Vector.replicate 128 ⟨false, false, 0, 0⟩
        cfg := ⟨a.attack.getD (.rat (4 / 5)), a.decay.getD (.rat 5), a.sustain.getD (.rat 0), a.release.getD (.rat (1 / 5)),
          a.referenceFrequency.getD (.rat 440), a.masterVolume.getD (.rat (1 / 10)), a.wave.getD .triangle,
          a.rate, a.channels⟩
        seq := .ready, out := [], report := [], ret := .nothing }

/-- 10 R35, 95 V-RST-1: the reset state, which is what `OPEN R=44100, C=2` leaves. The values of R and C, of OUT, of the channel, of
TICK_W and QDEPTH and of the model's own fields are the model's choice (log 8, 9, 10, 12, 15, 18). -/
def Obligations.ResetValues : Prop :=
  State.reset.stream = .opened ∧ State.reset.tick = 0 ∧
  (∀ i : NoteIx, State.reset.note i = ⟨false, false, 0, 0⟩) ∧
  State.reset.cfg =
    ⟨.rat (4 / 5), .rat 5, .rat 0, .rat (1 / 5), .rat 440, .rat (1 / 10), .triangle, 44100, 2⟩ ∧
  State.reset.evq = [] ∧ State.reset.seq = .ready ∧ State.reset.report = [] ∧ State.reset.Opened ∧
  ∀ s : State, s.stream = .absent → s.IsReady →
    exec (.openStream { rate := 44100, channels := 2 }) s = .next
      { State.reset with evq := s.evq, chan := s.chan, impl := s.impl, script := s.script }

/-- 20 R56, R54: PUSH appends at the tail when EVQ has room and is otherwise not accepted; nothing else of the engine changes. That a
closed channel takes no record is the model's choice (log 15). -/
def Obligations.PushResult : Prop :=
  ∀ (s : State) (r : Record),
    (s.chan = .connected → (∀ d : Nat, s.impl.qdepth = some d → s.evq.length < d) →
      exec (.push r) s = .next { s with evq := s.evq ++ [r], ret := .accepted true }) ∧
    (∀ d : Nat, s.impl.qdepth = some d → d ≤ s.evq.length →
      exec (.push r) s = .next { s with ret := .accepted false }) ∧
    (s.chan = .closed → exec (.push r) s = .next { s with ret := .accepted false })

/-- 70 R202: CLOSE ends the stream; the records still queued are never applied, and no operation on the Synth State has a meaning after it:
all are refused but OPEN, PUSH and the four oscillators, which do not need one, and so is the request of a FILL. The emptied queue and
the fresh channel are the model's choice (log 14), and the refusals of what only the engine performs are its inference (log 16). -/
def Obligations.CloseResult : Prop :=
  ∀ s : State, s.stream = .opened → s.IsReady →
    ∃ u : State, exec .closeStream s = .next u ∧
      u = { s with stream := .absent, evq := [], chan := .connected } ∧
      (∀ frames : Nat, u.acceptFill frames = .refused .noStream) ∧
      ∀ i : Instr,
        match i with
        | .openStream _ | .push _ | .sine _ | .triangle _ | .square _ | .sawtooth _ => True
        | _ => exec i u = .refused .noStream

/-- 70 R213, 93 U12: while a FILL is in progress no second FILL, no OPEN and no CLOSE has a meaning, and a request is not accepted. -/
def Obligations.FillIsNotReentrant : Prop :=
  ∀ (s : State) (frames : Nat) (a : OpenArgs), s.Opened → s.seq ≠ .ready →
    exec (.fill frames) s = .refused .fillInProgress ∧ s.acceptFill frames = .refused .fillInProgress ∧
    exec (.openStream a) s = .refused .fillInProgress ∧ exec .closeStream s = .refused .fillInProgress

/-! ### Whole-machine rules -/

/-- 10 R25: only FRAME increments `tick`, by one; FILL is `P` frames, OPEN starts it at 0, and no other operation changes it. -/
def Obligations.TickMovesOnlyByFrames : Prop :=
  ∀ (i : Instr) (s u : State), exec i s = .next u →
    u.tick =
      match i with
      | .frame _ => s.tick + 1
      | .fill frames => s.tick + frames
      | .openStream _ => 0
      | _ => s.tick

/-- 10 R30, 70 R215: no step changes the configuration of an open stream; only an OPEN where none is open brings another, a legal one.
None changes TICK_W or QDEPTH. -/
def Obligations.ConfigurationIsConstant : Prop :=
  ∀ s u : State, step s = .next u →
    u.impl = s.impl ∧
    (u.cfg = s.cfg ∨
      s.stream = .absent ∧
        ∃ (a : OpenArgs) (rest : List Move), s.script = .perform (.openStream a) :: rest ∧ u.cfg = a.cfg ∧ a.cfg.legal = true)

/-- 20 R54, R64 (e): the queue grows only at its tail, by an accepted PUSH; only INGEST (alone or in a FILL) removes records, all of them; CLOSE
ends it (log 14). -/
def Obligations.QueueWriters : Prop :=
  ∀ (i : Instr) (s u : State), exec i s = .next u →
    u.evq =
      match i with
      | .push r => if s.evqHasRoom then s.evq ++ [r] else s.evq
      | .ingest => []
      | .fill _ => []
      | .closeStream => []
      | _ => s.evq

/-- 10 R22, R23, R24 and 20 R50, R57: who writes what. A note's `pressed` and timestamps change only by PRESS, RELEASE, the events and
ingestions that perform them, and OPEN; OUT changes only by FRAME, FILL and OPEN. -/
def Obligations.FlagAndBufferWriters : Prop :=
  ∀ (i : Instr) (s u : State), exec i s = .next u →
    (match i with
      | .press _ _ | .release _ _ | .noteOn _ _ | .noteOff _ _ | .ingest | .fill _ | .openStream _ => True
      | _ => ∀ j : NoteIx, (u.note j).pressed = (s.note j).pressed ∧
          (u.note j).tickPressed = (s.note j).tickPressed ∧ (u.note j).tickReleased = (s.note j).tickReleased) ∧
    (match i with
      | .frame _ | .fill _ | .openStream _ => True
      | _ => ∀ a : Nat, u.outRead a = s.outRead a)

/-- 60 R173, R34 (c): no rule reads the condition report: with any other report every operation does the same and appends the same entries;
OPEN empties it. -/
def Obligations.ReportIsNeverRead : Prop :=
  (∀ (i : Instr) (s u : State) (r : List ReportEntry), (∀ a : OpenArgs, i ≠ .openStream a) → exec i s = .next u →
    ∃ added : List ReportEntry, u.report = s.report ++ added ∧
      exec i { s with report := r } = .next { u with report := r ++ added }) ∧
  (∀ (a : OpenArgs) (s : State) (r : List ReportEntry),
    exec (.openStream a) { s with report := r } = exec (.openStream a) s)

/-- 20 R55, 60 R172: the engine cannot tell a closed channel from an open one: a micro-step does the same on both. -/
def Obligations.ClosedChannelLooksEmpty : Prop :=
  ∀ (s u : State) (c : Channel), engineStep s = .next u →
    engineStep { s with chan := c } = .next { u with chan := c }

/-- 60 R183, R171: the only fault is TickOverflow, and only FRAME and FILL, under a bounded TICK_W, raise it. -/
def Obligations.OnlyTickOverflowFaults : Prop :=
  ∀ (i : Instr) (s : State) (f : Fault), exec i s = .fault f →
    f = .tickOverflow ∧ (∃ w : Nat, s.impl.tickW = some w) ∧
      ((∃ k : Nat, i = .frame k) ∨ ∃ frames : Nat, i = .fill frames)

/-- 70 R221: when an operation has no meaning: there is no stream, the configuration is not legal, a FILL is in progress, or it is the OPEN of a
stream already open (log 13, log 16). So with an opened stream that is Ready only an OPEN is refused. -/
def Obligations.RefusalsAreTheListedMoves : Prop :=
  ∀ (i : Instr) (s : State) (r : Refusal), exec i s = .refused r →
    (r = .noStream ∧ s.stream = .absent) ∨
    (r = .illegalConfig ∧ (s.cfg.legal = false ∨ ∃ a : OpenArgs, i = .openStream a ∧ a.cfg.legal = false)) ∨
    (r = .fillInProgress ∧ s.seq ≠ .ready) ∨
    (r = .streamOpen ∧ s.stream = .opened ∧ ∃ a : OpenArgs, i = .openStream a)

/-- 10 R28, R29, 60 R171, 20 R57: the invariant of a run holds after reset. -/
def Obligations.ResetMeetsTheInvariant : Prop := State.reset.Inv

/-- 10 R28, R29, R26, 60 R171, R174: every step of the host, the producer and the engine keeps the invariant of a run: pressed implies active, no
timestamp in the future, a released sounding note pressed no later than released, a legal configuration, a sound sequencer,
a report of invalid indices only, and OUT in its canonical form. -/
def Obligations.EveryStepKeepsTheInvariant : Prop :=
  ∀ s u : State, s.Inv → step s = .next u → u.Inv
end

