-- ==== Sys2Proof/Laws/Scalar.lean ====
section
/-! SUPPORT. The arithmetic and the comparisons of scalars against the reals they are. -/

namespace Sys2Proof

@[simp] theorem Scalar.toReal_plus (x y : Scalar) : (x.plus y).toReal = x.toReal + y.toReal := by
  unfold Scalar.plus
  split <;> simp

@[simp] theorem Scalar.toReal_times (x y : Scalar) : (x.times y).toReal = x.toReal * y.toReal := by
  unfold Scalar.times
  split <;> simp

@[simp] theorem Scalar.toReal_recip (x : Scalar) : x.recip.toReal = x.toReal⁻¹ := by
  unfold Scalar.recip
  split <;> simp

@[simp] theorem Scalar.toReal_minus (x y : Scalar) : (x.minus y).toReal = x.toReal - y.toReal := by
  simp [Scalar.minus, sub_eq_add_neg]

@[simp] theorem Scalar.toReal_over (x y : Scalar) : (x.over y).toReal = x.toReal / y.toReal := by
  simp [Scalar.over, div_eq_mul_inv]

/-- The floor is the floor, of every scalar. -/
theorem Scalar.floorTimes_eq (x : Scalar) (m : Fin Config.semitones) :
    x.floorTimes m = ⌊x.toReal * rootReal m.val⌋ := by
  unfold Scalar.floorTimes
  split
  · exact rootFloor_eq_floor _ m
  · exact Config.realNames.floorTimes_eq x m

/-- `timesIsInt` says that the number is its own floor. -/
theorem Scalar.timesIsInt_iff (x : Scalar) (m : Fin Config.semitones) :
    x.timesIsInt m = true ↔ ((x.floorTimes m : ℤ) : ℝ) = x.toReal * rootReal m.val := by
  rw [Scalar.timesIsInt, decide_eq_true_iff, Scalar.floorTimes_eq, Scalar.floorTimes_eq, Scalar.toReal_times,
    Scalar.toReal_rat]
  generalize hv : x.toReal * rootReal m.val = v
  have hn : x.toReal * ((-1 : ℚ) : ℝ) * rootReal m.val = -v := by
    rw [← hv]
    push_cast
    ring
  rw [hn, Int.floor_neg]
  constructor
  · intro h
    have hc : ⌈v⌉ = ⌊v⌋ := by omega
    have h1 := Int.le_ceil v
    rw [hc] at h1
    exact le_antisymm (Int.floor_le v) h1
  · intro h
    rw [← h, Int.floor_intCast, Int.ceil_intCast]
    omega

/-- `le` is the order of the reals. -/
theorem Scalar.le_iff (x y : Scalar) : x.le y = true ↔ x.toReal ≤ y.toReal := by
  unfold Scalar.le
  split
  · simp
  · rw [decide_eq_true_iff, Scalar.floorTimes_eq]
    simp [Int.floor_nonneg]

/-- `lt` is the strict order of the reals. -/
theorem Scalar.lt_iff (x y : Scalar) : x.lt y = true ↔ x.toReal < y.toReal := by
  rw [Scalar.lt, Bool.not_eq_true', ← Bool.not_eq_true, Scalar.le_iff, not_le]

/-- A product of two scalars other than the literal 0 is not the literal 0. -/
theorem Scalar.times_ne_zero {x y : Scalar} (hx : x ≠ .rat 0) (hy : y ≠ .rat 0) : x.times y ≠ .rat 0 := by
  unfold Scalar.times
  split
  · simp_all
  · simp

end Sys2Proof
end

