-- ==== Sys2Proof/Laws/Number.lean ====
section
/-! SUPPORT. What the exact numbers are: every operation on them against the reals they stand for, and their canonical form. -/

namespace Sys2Proof

/-! ### The reals -/

@[simp] theorem Base.toReal_root_zero : (Base.root 0).toReal = 1 := by
  simp [Base.toReal]

@[simp] theorem ExactNum.toReal_zero : ExactNum.zero.toReal = 0 := rfl

theorem ExactNum.toReal_term (b : Base) (c : Scalar) : (ExactNum.term b c).toReal = c.toReal * b.toReal := by
  unfold ExactNum.term ExactNum.toReal
  split <;> simp_all

@[simp] theorem ExactNum.toReal_ofScalar (x : Scalar) : (ExactNum.ofScalar x).toReal = x.toReal := by
  simp [ExactNum.ofScalar, ExactNum.toReal_term]

@[simp] theorem ExactNum.toReal_ofRat (q : Rat) : (ExactNum.ofRat q).toReal = (q : ℝ) := by
  simp [ExactNum.ofRat]

@[simp] theorem ExactNum.toReal_mono (q : Scalar) (m : Fin Config.semitones) :
    (ExactNum.mono q m).toReal = q.toReal * rootReal m.val := by
  simp [ExactNum.mono, ExactNum.toReal_term, Base.toReal]

@[simp] theorem ExactNum.toReal_ofWave (w : Wave) (x : Phase) : (ExactNum.ofWave w x).toReal = w.fn x.toReal := by
  simp [ExactNum.ofWave, ExactNum.toReal_term, Base.toReal]

theorem insertTerm_sum (b : Base) (c : Scalar) (l : List (Base × Scalar)) :
    ((insertTerm b c l).map fun t => t.2.toReal * t.1.toReal).sum
      = c.toReal * b.toReal + (l.map fun t => t.2.toReal * t.1.toReal).sum := by
  induction l with
  | nil => simp [insertTerm]
  | cons t ts ih =>
    obtain ⟨b', c'⟩ := t
    simp only [insertTerm]
    split
    · rename_i hb
      subst hb
      split
      · rename_i hc
        have hr : c'.toReal + c.toReal = 0 := by rw [← Scalar.toReal_plus, hc]; simp
        simp only [List.map_cons, List.sum_cons]
        linear_combination (-b.toReal) * hr
      · simp only [List.map_cons, List.sum_cons]
        rw [Scalar.toReal_plus]
        ring
    · split
      · simp
      · simp only [List.map_cons, List.sum_cons, ih]
        ring

theorem ExactNum.toReal_addTerm (n : ExactNum) (t : Base × Scalar) :
    (n.addTerm t).toReal = n.toReal + t.2.toReal * t.1.toReal := by
  unfold ExactNum.addTerm
  split
  · simp_all
  · simp only [ExactNum.toReal, insertTerm_sum]
    ring

@[simp] theorem ExactNum.toReal_add (x y : ExactNum) : (x.add y).toReal = x.toReal + y.toReal := by
  unfold ExactNum.add
  suffices h : ∀ (l : List (Base × Scalar)) (x : ExactNum),
      (l.foldl ExactNum.addTerm x).toReal = x.toReal + (l.map fun t => t.2.toReal * t.1.toReal).sum from
    h y.terms x
  intro l
  induction l with
  | nil => simp
  | cons t ts ih =>
    intro x
    simp only [List.foldl_cons, ih, ExactNum.toReal_addTerm, List.map_cons, List.sum_cons]
    ring

@[simp] theorem ExactNum.toReal_scale (c : Scalar) (n : ExactNum) : (n.scale c).toReal = c.toReal * n.toReal := by
  unfold ExactNum.scale ExactNum.toReal
  split
  · simp_all
  · simp only [List.map_map, ← List.sum_map_mul_left]
    congr 1
    apply List.map_congr_left
    intro t _
    simp
    ring

/-! ### The canonical form -/

theorem keyLt_irrefl (a : List Int) : keyLt a a = false := by
  induction a with
  | nil => rfl
  | cons x xs ih => simp [keyLt, ih]

theorem keyLt_trans : ∀ a b c : List Int, keyLt a b = true → keyLt b c = true → keyLt a c = true
  | [], [], _ => by simp [keyLt]
  | [], _ :: _, [] => by simp [keyLt]
  | [], _ :: _, _ :: _ => by simp [keyLt]
  | _ :: _, [], _ => by simp [keyLt]
  | _ :: _, _ :: _, [] => by simp [keyLt]
  | x :: xs, y :: ys, z :: zs => by
    have ih := keyLt_trans xs ys zs
    simp only [keyLt]
    grind

theorem keyLt_total : ∀ a b : List Int, keyLt a b = false → keyLt b a = false → a = b
  | [], [] => by simp
  | [], _ :: _ => by simp [keyLt]
  | _ :: _, [] => by simp [keyLt]
  | x :: xs, y :: ys => by
    have ih := keyLt_total xs ys
    simp only [keyLt]
    grind

/-- The key of a scalar can be read off the start of a list in one way only. -/
theorem Scalar.key_append_injective (x y : Scalar) :
    ∀ r s : List Int, x.key ++ r = y.key ++ s → x = y ∧ r = s := by
  induction x generalizing y with
  | rat q =>
    intro r s h
    cases y <;> simp_all [Scalar.key]
    exact Rat.ext h.1 h.2.1
  | named n =>
    intro r s h
    cases y <;> simp_all [Scalar.key]
  | add x x' ih ih' =>
    intro r s h
    cases y <;> simp only [Scalar.key, List.cons_append, List.cons.injEq, List.append_assoc] at h
    all_goals first
      | (exfalso; omega)
      | skip
    obtain ⟨rfl, h'⟩ := ih _ _ _ h.2
    obtain ⟨rfl, rfl⟩ := ih' _ _ _ h'
    exact ⟨rfl, rfl⟩
  | mul x x' ih ih' =>
    intro r s h
    cases y <;> simp only [Scalar.key, List.cons_append, List.cons.injEq, List.append_assoc] at h
    all_goals first
      | (exfalso; omega)
      | skip
    obtain ⟨rfl, h'⟩ := ih _ _ _ h.2
    obtain ⟨rfl, rfl⟩ := ih' _ _ _ h'
    exact ⟨rfl, rfl⟩
  | inv x ih =>
    intro r s h
    cases y <;> simp only [Scalar.key, List.cons_append, List.cons.injEq] at h
    all_goals first
      | (exfalso; omega)
      | skip
    obtain ⟨rfl, rfl⟩ := ih _ _ _ h.2
    exact ⟨rfl, rfl⟩

theorem Scalar.key_injective (x y : Scalar) (h : x.key = y.key) : x = y :=
  (Scalar.key_append_injective x y [] [] (by rw [h])).1

theorem Phase.key_injective (x y : Phase) (h : x.key = y.key) : x = y := by
  cases x <;> cases y <;> simp only [Phase.key, List.cons.injEq] at h
  · rename_i q m q' m'
    have hm : m = m' := Fin.ext (by exact_mod_cast h.2.1)
    rw [Scalar.key_injective _ _ h.2.2, hm]
  · exact absurd h.1 (by decide)
  · exact absurd h.1 (by decide)
  · rw [Scalar.key_injective _ _ h.2]

theorem Wave.rank_injective (v w : Wave) (h : v.rank = w.rank) : v = w := by
  cases v <;> cases w <;> simp_all [Wave.rank]

theorem Base.key_injective (x y : Base) (h : x.key = y.key) : x = y := by
  cases x <;> cases y <;> simp_all [Base.key]
  · rename_i m m'
    exact Fin.ext (by omega)
  · exact ⟨Wave.rank_injective _ _ h.1, Phase.key_injective _ _ h.2⟩

theorem Base.keyLt_of_not {x y : Base} (hne : x ≠ y) (h : keyLt x.key y.key = false) :
    keyLt y.key x.key = true := by
  by_contra hc
  exact hne (Base.key_injective x y (keyLt_total _ _ h (by simpa using hc)))

theorem sortedTerms_tail {a : Base × Scalar} {l : List (Base × Scalar)} (h : sortedTerms (a :: l) = true) :
    sortedTerms l = true := by
  cases l with
  | nil => rfl
  | cons b l => simp_all [sortedTerms]

theorem sortedTerms_skip {a b : Base × Scalar} {l : List (Base × Scalar)} (h : sortedTerms (b :: l) = true)
    (hab : keyLt a.1.key b.1.key = true) : sortedTerms (a :: l) = true := by
  cases l with
  | nil => rfl
  | cons c l =>
    simp only [sortedTerms, Bool.and_eq_true] at h ⊢
    exact ⟨keyLt_trans _ _ _ hab h.1, h.2⟩

theorem sortedTerms_insert (b : Base) (c : Scalar) (l : List (Base × Scalar)) (h : sortedTerms l = true) :
    sortedTerms (insertTerm b c l) = true
      ∧ ∀ a : Base × Scalar, keyLt a.1.key b.key = true → sortedTerms (a :: l) = true →
          sortedTerms (a :: insertTerm b c l) = true := by
  induction l with
  | nil =>
    refine ⟨rfl, fun a ha _ => ?_⟩
    simp [insertTerm, sortedTerms, ha]
  | cons t ts ih =>
    obtain ⟨b', c'⟩ := t
    have ih := ih (sortedTerms_tail h)
    simp only [insertTerm]
    split
    · rename_i hb
      subst hb
      split
      · exact ⟨sortedTerms_tail h, fun a ha _ => sortedTerms_skip h ha⟩
      · refine ⟨?_, fun a ha _ => ?_⟩
        · cases ts <;> simp_all [sortedTerms]
        · cases ts <;> simp_all [sortedTerms]
    · rename_i hb
      split
      · rename_i hlt
        refine ⟨by simp [sortedTerms, hlt, h], fun a ha _ => ?_⟩
        simp [sortedTerms, ha, hlt, h]
      · rename_i hlt
        have hgt : keyLt b'.key b.key = true := Base.keyLt_of_not hb (by simpa using hlt)
        have hs := ih.2 (b', c') hgt h
        refine ⟨hs, fun a _ hs' => ?_⟩
        simp only [sortedTerms, Bool.and_eq_true] at hs' ⊢
        exact ⟨hs'.1, hs⟩

theorem insertTerm_nonzero (b : Base) (c : Scalar) (hc : c ≠ .rat 0) (l : List (Base × Scalar))
    (h : l.all (fun t => t.2 != .rat 0) = true) : (insertTerm b c l).all (fun t => t.2 != .rat 0) = true := by
  induction l with
  | nil => simp [insertTerm, hc]
  | cons t ts ih =>
    obtain ⟨b', c'⟩ := t
    rw [List.all_cons, Bool.and_eq_true] at h
    rw [insertTerm]
    split
    · split
      · exact h.2
      · rename_i hs
        rw [List.all_cons, h.2, Bool.and_true]
        simpa using hs
    · split
      · rw [List.all_cons, List.all_cons, h.1, h.2]
        simpa using hc
      · rw [List.all_cons, h.1, ih h.2, Bool.and_true]

theorem ExactNum.wf_zero : ExactNum.zero.wf = true := rfl

theorem ExactNum.wf_term (b : Base) (c : Scalar) : (ExactNum.term b c).wf = true := by
  unfold ExactNum.term ExactNum.wf
  split <;> simp_all [sortedTerms]

theorem ExactNum.wf_addTerm {n : ExactNum} (h : n.wf = true) (t : Base × Scalar) : (n.addTerm t).wf = true := by
  unfold ExactNum.addTerm
  split
  · exact h
  · rename_i hc
    simp only [ExactNum.wf, Bool.and_eq_true] at h ⊢
    exact ⟨(sortedTerms_insert _ _ _ h.1).1, insertTerm_nonzero _ _ hc _ h.2⟩

theorem ExactNum.wf_add {x : ExactNum} (h : x.wf = true) (y : ExactNum) : (x.add y).wf = true := by
  unfold ExactNum.add
  generalize y.terms = l
  induction l generalizing x with
  | nil => exact h
  | cons t ts ih => exact ih (ExactNum.wf_addTerm h t)

theorem sortedTerms_map (c : Scalar) (l : List (Base × Scalar)) :
    sortedTerms (l.map fun t => (t.1, c.times t.2)) = sortedTerms l := by
  induction l with
  | nil => rfl
  | cons a l ih =>
    cases l with
    | nil => rfl
    | cons b l => simp_all [sortedTerms]

theorem ExactNum.wf_scale (c : Scalar) {n : ExactNum} (h : n.wf = true) : (n.scale c).wf = true := by
  unfold ExactNum.scale ExactNum.wf at *
  split
  · rfl
  · rename_i hc
    simp only [Bool.and_eq_true, List.all_eq_true] at h ⊢
    refine ⟨by rw [sortedTerms_map]; exact h.1, ?_⟩
    intro t ht
    obtain ⟨u, hu, rfl⟩ := List.mem_map.1 ht
    have hne : u.2 ≠ .rat 0 := by simpa using h.2 u hu
    simpa using Scalar.times_ne_zero hc hne

end Sys2Proof
end

