-- ==== Sys2Proof/Laws/State.lean ====
section
/-! SUPPORT. The fields of a state after each named update: one lemma a field, so that no proof unfolds an update. -/

namespace Sys2Proof.Machine

/-! ### setNote -/

@[simp] theorem State.setNote_stream (s : State) (i : NoteIx) (n : Note) : (s.setNote i n).stream = s.stream := rfl
@[simp] theorem State.setNote_tick (s : State) (i : NoteIx) (n : Note) : (s.setNote i n).tick = s.tick := rfl
@[simp] theorem State.setNote_notes (s : State) (i : NoteIx) (n : Note) : (s.setNote i n).notes = s.notes.set i.val n := rfl
@[simp] theorem State.setNote_cfg (s : State) (i : NoteIx) (n : Note) : (s.setNote i n).cfg = s.cfg := rfl
@[simp] theorem State.setNote_evq (s : State) (i : NoteIx) (n : Note) : (s.setNote i n).evq = s.evq := rfl
@[simp] theorem State.setNote_chan (s : State) (i : NoteIx) (n : Note) : (s.setNote i n).chan = s.chan := rfl
@[simp] theorem State.setNote_seq (s : State) (i : NoteIx) (n : Note) : (s.setNote i n).seq = s.seq := rfl
@[simp] theorem State.setNote_out (s : State) (i : NoteIx) (n : Note) : (s.setNote i n).out = s.out := rfl
@[simp] theorem State.setNote_report (s : State) (i : NoteIx) (n : Note) : (s.setNote i n).report = s.report := rfl
@[simp] theorem State.setNote_impl (s : State) (i : NoteIx) (n : Note) : (s.setNote i n).impl = s.impl := rfl
@[simp] theorem State.setNote_ret (s : State) (i : NoteIx) (n : Note) : (s.setNote i n).ret = s.ret := rfl
@[simp] theorem State.setNote_script (s : State) (i : NoteIx) (n : Note) : (s.setNote i n).script = s.script := rfl

/-! ### raise -/

@[simp] theorem State.raise_stream (s : State) (c : Condition) (i : Byte) (t : Nat) : (s.raise c i t).stream = s.stream := rfl
@[simp] theorem State.raise_tick (s : State) (c : Condition) (i : Byte) (t : Nat) : (s.raise c i t).tick = s.tick := rfl
@[simp] theorem State.raise_notes (s : State) (c : Condition) (i : Byte) (t : Nat) : (s.raise c i t).notes = s.notes := rfl
@[simp] theorem State.raise_cfg (s : State) (c : Condition) (i : Byte) (t : Nat) : (s.raise c i t).cfg = s.cfg := rfl
@[simp] theorem State.raise_evq (s : State) (c : Condition) (i : Byte) (t : Nat) : (s.raise c i t).evq = s.evq := rfl
@[simp] theorem State.raise_chan (s : State) (c : Condition) (i : Byte) (t : Nat) : (s.raise c i t).chan = s.chan := rfl
@[simp] theorem State.raise_seq (s : State) (c : Condition) (i : Byte) (t : Nat) : (s.raise c i t).seq = s.seq := rfl
@[simp] theorem State.raise_out (s : State) (c : Condition) (i : Byte) (t : Nat) : (s.raise c i t).out = s.out := rfl
@[simp] theorem State.raise_report (s : State) (c : Condition) (i : Byte) (t : Nat) : (s.raise c i t).report = s.report ++ [⟨c, i, t⟩] := rfl
@[simp] theorem State.raise_impl (s : State) (c : Condition) (i : Byte) (t : Nat) : (s.raise c i t).impl = s.impl := rfl
@[simp] theorem State.raise_ret (s : State) (c : Condition) (i : Byte) (t : Nat) : (s.raise c i t).ret = s.ret := rfl
@[simp] theorem State.raise_script (s : State) (c : Condition) (i : Byte) (t : Nat) : (s.raise c i t).script = s.script := rfl

/-! ### evqAppend -/

@[simp] theorem State.evqAppend_stream (s : State) (r : Record) : (s.evqAppend r).stream = s.stream := rfl
@[simp] theorem State.evqAppend_tick (s : State) (r : Record) : (s.evqAppend r).tick = s.tick := rfl
@[simp] theorem State.evqAppend_notes (s : State) (r : Record) : (s.evqAppend r).notes = s.notes := rfl
@[simp] theorem State.evqAppend_cfg (s : State) (r : Record) : (s.evqAppend r).cfg = s.cfg := rfl
@[simp] theorem State.evqAppend_evq (s : State) (r : Record) : (s.evqAppend r).evq = s.evq ++ [r] := rfl
@[simp] theorem State.evqAppend_chan (s : State) (r : Record) : (s.evqAppend r).chan = s.chan := rfl
@[simp] theorem State.evqAppend_seq (s : State) (r : Record) : (s.evqAppend r).seq = s.seq := rfl
@[simp] theorem State.evqAppend_out (s : State) (r : Record) : (s.evqAppend r).out = s.out := rfl
@[simp] theorem State.evqAppend_report (s : State) (r : Record) : (s.evqAppend r).report = s.report := rfl
@[simp] theorem State.evqAppend_impl (s : State) (r : Record) : (s.evqAppend r).impl = s.impl := rfl
@[simp] theorem State.evqAppend_ret (s : State) (r : Record) : (s.evqAppend r).ret = s.ret := rfl
@[simp] theorem State.evqAppend_script (s : State) (r : Record) : (s.evqAppend r).script = s.script := rfl

/-! ### outWrite -/

@[simp] theorem State.outWrite_stream (s : State) (k : Nat) (v : ExactNum) (ch : Nat) : (s.outWrite k v ch).stream = s.stream := rfl
@[simp] theorem State.outWrite_tick (s : State) (k : Nat) (v : ExactNum) (ch : Nat) : (s.outWrite k v ch).tick = s.tick := rfl
@[simp] theorem State.outWrite_notes (s : State) (k : Nat) (v : ExactNum) (ch : Nat) : (s.outWrite k v ch).notes = s.notes := rfl
@[simp] theorem State.outWrite_cfg (s : State) (k : Nat) (v : ExactNum) (ch : Nat) : (s.outWrite k v ch).cfg = s.cfg := rfl
@[simp] theorem State.outWrite_evq (s : State) (k : Nat) (v : ExactNum) (ch : Nat) : (s.outWrite k v ch).evq = s.evq := rfl
@[simp] theorem State.outWrite_chan (s : State) (k : Nat) (v : ExactNum) (ch : Nat) : (s.outWrite k v ch).chan = s.chan := rfl
@[simp] theorem State.outWrite_seq (s : State) (k : Nat) (v : ExactNum) (ch : Nat) : (s.outWrite k v ch).seq = s.seq := rfl
@[simp] theorem State.outWrite_out (s : State) (k : Nat) (v : ExactNum) (ch : Nat) : (s.outWrite k v ch).out = Memory.write (outIndex s.cfg k ch) v s.out := rfl
@[simp] theorem State.outWrite_report (s : State) (k : Nat) (v : ExactNum) (ch : Nat) : (s.outWrite k v ch).report = s.report := rfl
@[simp] theorem State.outWrite_impl (s : State) (k : Nat) (v : ExactNum) (ch : Nat) : (s.outWrite k v ch).impl = s.impl := rfl
@[simp] theorem State.outWrite_ret (s : State) (k : Nat) (v : ExactNum) (ch : Nat) : (s.outWrite k v ch).ret = s.ret := rfl
@[simp] theorem State.outWrite_script (s : State) (k : Nat) (v : ExactNum) (ch : Nat) : (s.outWrite k v ch).script = s.script := rfl

/-! ### giveValue -/

@[simp] theorem State.giveValue_stream (s : State) (v : ExactNum) : (s.giveValue v).stream = s.stream := rfl
@[simp] theorem State.giveValue_tick (s : State) (v : ExactNum) : (s.giveValue v).tick = s.tick := rfl
@[simp] theorem State.giveValue_notes (s : State) (v : ExactNum) : (s.giveValue v).notes = s.notes := rfl
@[simp] theorem State.giveValue_cfg (s : State) (v : ExactNum) : (s.giveValue v).cfg = s.cfg := rfl
@[simp] theorem State.giveValue_evq (s : State) (v : ExactNum) : (s.giveValue v).evq = s.evq := rfl
@[simp] theorem State.giveValue_chan (s : State) (v : ExactNum) : (s.giveValue v).chan = s.chan := rfl
@[simp] theorem State.giveValue_seq (s : State) (v : ExactNum) : (s.giveValue v).seq = s.seq := rfl
@[simp] theorem State.giveValue_out (s : State) (v : ExactNum) : (s.giveValue v).out = s.out := rfl
@[simp] theorem State.giveValue_report (s : State) (v : ExactNum) : (s.giveValue v).report = s.report := rfl
@[simp] theorem State.giveValue_impl (s : State) (v : ExactNum) : (s.giveValue v).impl = s.impl := rfl
@[simp] theorem State.giveValue_ret (s : State) (v : ExactNum) : (s.giveValue v).ret = .value v := rfl
@[simp] theorem State.giveValue_script (s : State) (v : ExactNum) : (s.giveValue v).script = s.script := rfl

/-! ### deactivateNote -/

@[simp] theorem State.deactivateNote_stream (s : State) (i : NoteIx) : (s.deactivateNote i).stream = s.stream := rfl
@[simp] theorem State.deactivateNote_tick (s : State) (i : NoteIx) : (s.deactivateNote i).tick = s.tick := rfl
@[simp] theorem State.deactivateNote_notes (s : State) (i : NoteIx) : (s.deactivateNote i).notes = s.notes.set i.val (s.note i).deactivate := rfl
@[simp] theorem State.deactivateNote_cfg (s : State) (i : NoteIx) : (s.deactivateNote i).cfg = s.cfg := rfl
@[simp] theorem State.deactivateNote_evq (s : State) (i : NoteIx) : (s.deactivateNote i).evq = s.evq := rfl
@[simp] theorem State.deactivateNote_chan (s : State) (i : NoteIx) : (s.deactivateNote i).chan = s.chan := rfl
@[simp] theorem State.deactivateNote_seq (s : State) (i : NoteIx) : (s.deactivateNote i).seq = s.seq := rfl
@[simp] theorem State.deactivateNote_out (s : State) (i : NoteIx) : (s.deactivateNote i).out = s.out := rfl
@[simp] theorem State.deactivateNote_report (s : State) (i : NoteIx) : (s.deactivateNote i).report = s.report := rfl
@[simp] theorem State.deactivateNote_impl (s : State) (i : NoteIx) : (s.deactivateNote i).impl = s.impl := rfl
@[simp] theorem State.deactivateNote_ret (s : State) (i : NoteIx) : (s.deactivateNote i).ret = s.ret := rfl
@[simp] theorem State.deactivateNote_script (s : State) (i : NoteIx) : (s.deactivateNote i).script = s.script := rfl

end Sys2Proof.Machine
end

