-- ==== Sys2Proof/Laws/Ops.lean ====
section
/-! SUPPORT. What each shared operation can do, said once. -/

namespace Sys2Proof.Machine

/-! ### The guard -/

theorem onEngine_of_opened {s : State} (h : s.Opened) (a : Answer) : s.onEngine a = a := by
  simp [State.onEngine, h.1, h.2]

/-- The guard lets a next state through only from an opened stream. -/
theorem onEngine_next_iff {s u : State} {a : Answer} :
    s.onEngine a = .next u ↔ s.Opened ∧ a = .next u := by
  unfold State.onEngine State.Opened
  cases hs : s.stream <;> cases hc : s.cfg.legal <;> simp

/-- The guard lets a fault through only from an opened stream. -/
theorem onEngine_fault_iff {s : State} {a : Answer} {f : Fault} :
    s.onEngine a = .fault f ↔ s.Opened ∧ a = .fault f := by
  unfold State.onEngine State.Opened
  cases hs : s.stream <;> cases hc : s.cfg.legal <;> simp

theorem legal_iff (c : Cfg) : c.legal = true ↔
    0 < c.attack.toReal ∧ 0 ≤ c.decay.toReal ∧ 0 < c.release.toReal ∧ 0 ≤ c.sustain.toReal ∧ c.sustain.toReal ≤ 1
      ∧ 0 < c.referenceFrequency.toReal ∧ 1 ≤ c.rate ∧ 1 ≤ c.channels := by
  simp [Cfg.legal, Scalar.le_iff, Scalar.lt_iff, and_assoc]

/-! ### The space NOTE -/

@[simp] theorem note_setNote_same (s : State) (i : NoteIx) (n : Note) : (s.setNote i n).note i = n := by
  simp [State.note, State.setNote]

theorem note_setNote (s : State) (i j : NoteIx) (n : Note) :
    (s.setNote i n).note j = if i = j then n else s.note j := by
  simp only [State.note, State.setNote, Vector.getElem_set, Fin.ext_iff]

theorem note_setNote_ne (s : State) {i j : NoteIx} (h : i ≠ j) (n : Note) :
    (s.setNote i n).note j = s.note j := by
  simp [note_setNote, h]

theorem setNote_self (s : State) (i : NoteIx) : s.setNote i (s.note i) = s := by
  cases s
  simp [State.setNote, State.note]

theorem note_of_notes_eq {s u : State} (h : u.notes = s.notes) (i : NoteIx) : u.note i = s.note i := by
  simp [State.note, h]

/-- A byte names the entry of its value when that is below 128, and no entry otherwise. -/
theorem noteIndex?_cases (i : Byte) :
    (128 ≤ i.toNat ∧ noteIndex? i = none)
      ∨ ∃ ix : NoteIx, ix.val = i.toNat ∧ noteIndex? i = some ix := by
  unfold noteIndex?
  by_cases h : i.toNat < Config.notes
  · exact .inr ⟨⟨i.toNat, h⟩, rfl, by simp [h]⟩
  · refine .inl ⟨?_, by simp [h]⟩
    simpa [Config.notes] using h

/-- Everything PRESS can do. -/
theorem pressAt_cases (s : State) (i : Byte) (t : Nat) :
    (128 ≤ i.toNat ∧ s.pressAt i t = s.raise .invalidNoteIndex i t)
      ∨ ∃ ix : NoteIx, ix.val = i.toNat ∧ s.pressAt i t = s.setNote ix ((s.note ix).press t) := by
  unfold State.pressAt
  rcases noteIndex?_cases i with ⟨h, h'⟩ | ⟨ix, h, h'⟩
  · exact .inl ⟨h, by rw [h']⟩
  · exact .inr ⟨ix, h, by rw [h']⟩

/-- Everything RELEASE can do. -/
theorem releaseAt_cases (s : State) (i : Byte) (t : Nat) :
    (128 ≤ i.toNat ∧ s.releaseAt i t = s.raise .invalidNoteIndex i t)
      ∨ ∃ ix : NoteIx, ix.val = i.toNat ∧ s.releaseAt i t = s.setNote ix ((s.note ix).release t) := by
  unfold State.releaseAt
  rcases noteIndex?_cases i with ⟨h, h'⟩ | ⟨ix, h, h'⟩
  · exact .inl ⟨h, by rw [h']⟩
  · exact .inr ⟨ix, h, by rw [h']⟩

/-- Everything DEACTIVATE can do. -/
theorem deactivateAt_cases (s : State) (i : Byte) :
    (128 ≤ i.toNat ∧ s.deactivateAt i = s.raise .invalidNoteIndex i s.tick)
      ∨ ∃ ix : NoteIx, ix.val = i.toNat ∧ s.deactivateAt i = s.deactivateNote ix := by
  unfold State.deactivateAt
  rcases noteIndex?_cases i with ⟨h, h'⟩ | ⟨ix, h, h'⟩
  · exact .inl ⟨h, by rw [h']⟩
  · exact .inr ⟨ix, h, by rw [h']⟩

/-- PRESS touches the Note table and the report, nothing else. -/
theorem pressAt_eq (s : State) (i : Byte) (t : Nat) :
    s.pressAt i t = { s with notes := (s.pressAt i t).notes, report := (s.pressAt i t).report } := by
  rcases pressAt_cases s i t with ⟨-, h⟩ | ⟨ix, -, h⟩ <;> (rw [h]; rfl)

/-- RELEASE touches the Note table and the report, nothing else. -/
theorem releaseAt_eq (s : State) (i : Byte) (t : Nat) :
    s.releaseAt i t = { s with notes := (s.releaseAt i t).notes, report := (s.releaseAt i t).report } := by
  rcases releaseAt_cases s i t with ⟨-, h⟩ | ⟨ix, -, h⟩ <;> (rw [h]; rfl)

/-- DEACTIVATE touches the Note table and the report, nothing else. -/
theorem deactivateAt_eq (s : State) (i : Byte) :
    s.deactivateAt i = { s with notes := (s.deactivateAt i).notes, report := (s.deactivateAt i).report } := by
  rcases deactivateAt_cases s i with ⟨-, h⟩ | ⟨ix, -, h⟩ <;> (rw [h]; rfl)

/-- Everything ENV can do to the state: leave it, or deactivate its own note, which is active and released. -/
theorem envAt_state_cases (s : State) (i : NoteIx) (t : Nat) :
    (s.envAt i t).2 = s
      ∨ ((s.note i).active = true ∧ tailInaudible s.cfg (s.note i) t = true
          ∧ (s.envAt i t).2 = s.deactivateNote i) := by
  unfold State.envAt
  cases (s.note i).active <;> cases tailInaudible s.cfg (s.note i) t <;> simp

theorem envAt_state_eq (s : State) (i : NoteIx) (t : Nat) :
    (s.envAt i t).2 = { s with notes := (s.envAt i t).2.notes } := by
  rcases envAt_state_cases s i t with h | ⟨-, -, h⟩
  · rw [h]
  · rw [h]
    rfl

/-! ### Ingestion -/

/-- One event touches the Note table and the report, nothing else. -/
theorem applyEvent_eq (s : State) (t : Nat) (e : Event) :
    s.applyEvent t e
      = { s with notes := (s.applyEvent t e).notes, report := (s.applyEvent t e).report } := by
  cases e
  · exact pressAt_eq s _ t
  · exact releaseAt_eq s _ t
  · rfl

/-- The drain empties the queue and touches the Note table and the report, nothing else. -/
theorem drain_eq (t : Nat) (q : List Record) :
    ∀ s : State, drain t q s
      = { s with evq := [], notes := (drain t q s).notes, report := (drain t q s).report } := by
  induction q with
  | nil => intro s; rfl
  | cons r q ih =>
    intro s
    rw [drain, ih, applyEvent_eq]

theorem ingested_eq (s : State) :
    s.ingested = { s with evq := [], notes := s.ingested.notes, report := s.ingested.report } :=
  drain_eq s.tick s.evq s

/-! ### The scan and the buffer -/

theorem mixVoice_state_eq (t : Nat) (acc : ExactNum × State) (i : NoteIx) :
    (mixVoice t acc i).2 = { acc.2 with notes := (mixVoice t acc i).2.notes } := by
  unfold mixVoice
  cases (acc.2.note i).active
  · rfl
  · exact envAt_state_eq acc.2 i t

theorem mixFold_state_eq (t : Nat) (l : List NoteIx) :
    ∀ acc : ExactNum × State,
      (l.foldl (mixVoice t) acc).2 = { acc.2 with notes := (l.foldl (mixVoice t) acc).2.notes } := by
  induction l with
  | nil => intro acc; rfl
  | cons i l ih =>
    intro acc
    rw [List.foldl_cons, ih, mixVoice_state_eq]

/-- The scan touches the Note table, nothing else. -/
theorem mixed_state_eq (s : State) (t : Nat) : (s.mixed t).2 = { s with notes := (s.mixed t).2.notes } := by
  unfold State.mixed
  exact mixFold_state_eq t scanOrder (ExactNum.zero, s)

theorem writeFold_eq (k : Nat) (v : ExactNum) (l : List Nat) :
    ∀ s : State, l.foldl (fun u ch => u.outWrite k v ch) s
      = { s with out := (l.foldl (fun u ch => u.outWrite k v ch) s).out } := by
  induction l with
  | nil => intro s; rfl
  | cons ch l ih =>
    intro s
    rw [List.foldl_cons, ih]
    rfl

/-- Writing a frame touches OUT, nothing else. -/
theorem writeFrame_eq (s : State) (k : Nat) (v : ExactNum) :
    s.writeFrame k v = { s with out := (s.writeFrame k v).out } :=
  writeFold_eq k v _ s

/-- Advancing the sample counter adds one to it, or is the overflow fault. -/
theorem advanceTick_cases (s : State) :
    (s.tickFits (s.tick + 1) = true ∧ s.advanceTick = .next { s with tick := s.tick + 1 })
      ∨ (s.tickFits (s.tick + 1) = false ∧ s.advanceTick = .fault .tickOverflow) := by
  unfold State.advanceTick
  cases h : s.tickFits (s.tick + 1) <;> simp

/-- Everything one frame can do: the Note table and OUT are written and `tick` grows by one, or `tick` overflows. -/
theorem rendered_cases (s : State) (k : Nat) :
    (s.tickFits (s.tick + 1) = true
        ∧ s.rendered k = .next { s with
            notes := (s.mixed s.tick).2.notes
            out := ((s.mixed s.tick).2.writeFrame k (s.mixed s.tick).1).out
            tick := s.tick + 1 })
      ∨ (s.tickFits (s.tick + 1) = false ∧ s.rendered k = .fault .tickOverflow) := by
  have hw := writeFrame_eq (s.mixed s.tick).2 k (s.mixed s.tick).1
  rw [mixed_state_eq s s.tick] at hw
  unfold State.rendered
  rw [mixed_state_eq s s.tick]
  generalize (s.mixed s.tick).1 = v at *
  generalize (s.mixed s.tick).2.notes = n at *
  rw [hw]
  generalize (State.writeFrame _ k v).out = o
  exact advanceTick_cases { s with notes := n, out := o }

/-! ### The space OUT -/

theorem memory_read_write (a b : Nat) (v : ExactNum) (l : Memory) :
    Memory.read b (Memory.write a v l) = if a = b then some v else Memory.read b l := by
  induction l with
  | nil =>
    simp only [Memory.write, Memory.read, eq_comm]
  | cons c l ih =>
    obtain ⟨n, w⟩ := c
    simp only [Memory.write]
    split
    · simp only [Memory.read, eq_comm]
    · split
      · rename_i h
        subst h
        simp only [Memory.read, eq_comm]
        split <;> rfl
      · simp only [Memory.read, ih]
        grind

@[simp] theorem outRead_outWrite (s : State) (k : Nat) (v : ExactNum) (ch b : Nat) :
    (s.outWrite k v ch).outRead b = if outIndex s.cfg k ch = b then some v else s.outRead b := by
  simp [State.outRead, State.outWrite, memory_read_write]

/-- Writing one element keeps OUT in its canonical form. -/
theorem memory_wf_write (a : Nat) {v : ExactNum} (hv : v.wf = true) (l : Memory) (h : Memory.wf l = true) :
    Memory.wf (Memory.write a v l) = true
      ∧ ∀ c : Nat × ExactNum, c.1 < a → c.2.wf = true → Memory.wf (c :: l) = true →
          Memory.wf (c :: Memory.write a v l) = true := by
  induction l with
  | nil =>
    refine ⟨by simpa [Memory.write, Memory.wf] using hv, fun c hc hw _ => ?_⟩
    simp [Memory.write, Memory.wf, hc, hw, hv]
  | cons d l ih =>
    obtain ⟨n, w⟩ := d
    have hl : Memory.wf l = true := by
      cases l with
      | nil => rfl
      | cons e l => simp_all [Memory.wf]
    have hw : w.wf = true := by
      cases l with
      | nil => simpa [Memory.wf] using h
      | cons e l => simp_all [Memory.wf]
    have ih := ih hl
    simp only [Memory.write]
    split
    · rename_i ha
      refine ⟨by simp [Memory.wf, ha, hv, h], fun c hc hcw _ => ?_⟩
      simp [Memory.wf, hc, hcw, ha, hv, h]
    · split
      · rename_i ha hb
        subst hb
        refine ⟨?_, fun c hc hcw _ => ?_⟩
        · cases l <;> simp_all [Memory.wf]
        · cases l <;> simp_all [Memory.wf]
      · rename_i ha hb
        have hs := ih.2 (n, w) (by simp only; omega) hw h
        refine ⟨hs, fun c hc hcw hc' => ?_⟩
        simp only [Memory.wf, Bool.and_eq_true] at hc' ⊢
        exact ⟨hc'.1, hs⟩

theorem memory_wf_outWrite {s : State} (h : Memory.wf s.out = true) (k : Nat) {v : ExactNum} (hv : v.wf = true) (ch : Nat) :
    Memory.wf (s.outWrite k v ch).out = true :=
  (memory_wf_write _ hv _ h).1

theorem reset_memory_wf : Memory.wf State.reset.out = true := rfl

end Sys2Proof.Machine
end

