-- ==== Sys2Proof/Laws/PerInstr.lean ====
section
/-! SUPPORT. Per operation: the status byte of an operation's record, when it has a record, is that of its own row of the opcode table. -/

namespace Sys2Proof.Laws.RowStatus

/-- The status bytes of an operation's own row (30 R86, R87, R88); a row without an encoding has none. -/
def fits : Instr → Byte → Bool
  | .noteOn _ _, b => b == 144#8
  | .noteOff _ _, b => b == 128#8
  | .evOther _ _ _, b => b != 144#8 && b != 128#8
  | _, _ => false

/-- A well-formed operation's record carries a status byte of its own row, and decodes to no other row. -/
def Statement (i : Instr) : Prop :=
  i.wf = true → ∀ r : Record, encode i = some r → fits i r.status = true ∧ fits (decodeRecord r) r.status = true

theorem noteOn (n v : Byte) : Statement (.noteOn n v) := by
  rintro - r h
  cases h
  exact ⟨rfl, rfl⟩

theorem noteOff (n v : Byte) : Statement (.noteOff n v) := by
  rintro - r h
  cases h
  exact ⟨rfl, rfl⟩

theorem evOther (s n v : Byte) : Statement (.evOther s n v) := by
  intro hw r h
  cases h
  simp only [Instr.wf, Bool.and_eq_true, bne_iff_ne, ne_eq] at hw
  simp_all [fits, decodeRecord, decodeEvent, Event.toInstr, Config.stNoteOn, Config.stNoteOff]

theorem sine (x : Phase) : Statement (.sine x) := by rintro - r ⟨⟩
theorem triangle (x : Phase) : Statement (.triangle x) := by rintro - r ⟨⟩
theorem square (x : Phase) : Statement (.square x) := by rintro - r ⟨⟩
theorem sawtooth (x : Phase) : Statement (.sawtooth x) := by rintro - r ⟨⟩
theorem openStream (a : OpenArgs) : Statement (.openStream a) := by rintro - r ⟨⟩
theorem push (p : Record) : Statement (.push p) := by rintro - r ⟨⟩
theorem fill (p : Nat) : Statement (.fill p) := by rintro - r ⟨⟩
theorem closeStream : Statement .closeStream := by rintro - r ⟨⟩
theorem press (i : Byte) (t : Nat) : Statement (.press i t) := by rintro - r ⟨⟩
theorem release (i : Byte) (t : Nat) : Statement (.release i t) := by rintro - r ⟨⟩
theorem deactivate (i : Byte) : Statement (.deactivate i) := by rintro - r ⟨⟩
theorem ads (l : Scalar) : Statement (.ads l) := by rintro - r ⟨⟩
theorem env (i : NoteIx) (t : Nat) : Statement (.env i t) := by rintro - r ⟨⟩
theorem freq (i : NoteIx) : Statement (.freq i) := by rintro - r ⟨⟩
theorem osc (x : Phase) : Statement (.osc x) := by rintro - r ⟨⟩
theorem ingest : Statement .ingest := by rintro - r ⟨⟩
theorem frame (k : Nat) : Statement (.frame k) := by rintro - r ⟨⟩

end Sys2Proof.Laws.RowStatus
end

