-- ==== Sys2Proof/Laws/Render.lean ====
section
/-! SUPPORT. What the scan of a frame does to each note, and what a frame leaves in OUT. -/

namespace Sys2Proof.Machine

/-- A note after the scan of the frame at time `t`: out of the mix when it was sounding and its tail is inaudible. -/
def noteAfterScan (c : Cfg) (t : Nat) (n : Note) : Note :=
  if n.active = true ∧ tailInaudible c n t = true then n.deactivate else n

@[simp] theorem mixVoice_cfg (t : Nat) (acc : ExactNum × State) (i : NoteIx) :
    (mixVoice t acc i).2.cfg = acc.2.cfg := by
  rw [mixVoice_state_eq]

theorem mixVoice_note (t : Nat) (acc : ExactNum × State) (i j : NoteIx) :
    (mixVoice t acc i).2.note j
      = if i = j then noteAfterScan acc.2.cfg t (acc.2.note j) else acc.2.note j := by
  unfold mixVoice noteAfterScan
  by_cases hij : i = j
  · subst hij
    cases ha : (acc.2.note i).active
    · simp
    · cases hs : tailInaudible acc.2.cfg (acc.2.note i) t <;>
        simp [State.envAt, ha, hs, State.deactivateNote]
  · simp only [hij, if_false]
    split
    · rcases envAt_state_cases acc.2 i t with h | ⟨-, -, h⟩
      · simp only [h]
      · simp only [h, State.deactivateNote, note_setNote_ne _ hij]
    · rfl

theorem mixFold_note (t : Nat) (l : List NoteIx) (hl : l.Nodup) (j : NoteIx) :
    ∀ acc : ExactNum × State, (l.foldl (mixVoice t) acc).2.note j
      = if j ∈ l then noteAfterScan acc.2.cfg t (acc.2.note j) else acc.2.note j := by
  induction l with
  | nil => intro acc; simp
  | cons i l ih =>
    intro acc
    have hl' := List.nodup_cons.1 hl
    rw [List.foldl_cons, ih hl'.2, mixVoice_note, mixVoice_cfg]
    by_cases hij : i = j
    · subst hij
      simp [hl'.1]
    · simp [hij, Ne.symm hij]

theorem scanOrder_nodup : scanOrder.Nodup := List.nodup_finRange Config.notes

theorem mem_scanOrder (i : NoteIx) : i ∈ scanOrder := List.mem_finRange i

/-- Each note after the scan of a frame. -/
theorem mixed_note (s : State) (t : Nat) (j : NoteIx) :
    (s.mixed t).2.note j = noteAfterScan s.cfg t (s.note j) := by
  unfold State.mixed
  rw [mixFold_note t scanOrder scanOrder_nodup j (ExactNum.zero, s)]
  simp [mem_scanOrder]

/-- The element numbers of one frame are those of its channels. -/
theorem writeFold_outRead (k : Nat) (v : ExactNum) (l : List Nat) (a : Nat) :
    ∀ s : State, (l.foldl (fun u ch => u.outWrite k v ch) s).outRead a
      = if ∃ ch ∈ l, outIndex s.cfg k ch = a then some v else s.outRead a := by
  induction l with
  | nil => intro s; simp
  | cons ch l ih =>
    intro s
    rw [List.foldl_cons, ih, outRead_outWrite]
    simp only [State.outWrite_cfg, List.exists_mem_cons_iff]
    by_cases h1 : outIndex s.cfg k ch = a <;> by_cases h2 : ∃ c ∈ l, outIndex s.cfg k c = a <;>
      simp [h1, h2]

/-- What a frame leaves in each element of OUT. -/
theorem writeFrame_outRead (s : State) (k : Nat) (v : ExactNum) (a : Nat) :
    (s.writeFrame k v).outRead a
      = if ∃ ch < s.cfg.channels, outIndex s.cfg k ch = a then some v else s.outRead a := by
  unfold State.writeFrame
  rw [writeFold_outRead]
  simp [List.mem_range]

end Sys2Proof.Machine
end

