-- ==== Sys2Proof/Laws/Step.lean ====
section
/-! SUPPORT. What one step can do: the next move of the script, or a micro-step of the engine. -/

namespace Sys2Proof.Machine

theorem step_nil {s : State} (h : s.script = []) : step s = engineStep s := by
  simp [step, nextStep, h]

theorem step_cons {s : State} {m : Move} {rest : List Move} (h : s.script = m :: rest) :
    step s = moveStep m { s with script := rest } := by
  simp [step, nextStep, h]

/-- Everything one step can do: a micro-step of the engine when no move is left, else the next move. -/
theorem step_cases (s : State) :
    (s.script = [] ∧ step s = engineStep s)
      ∨ ∃ m rest, s.script = m :: rest ∧ step s = moveStep m { s with script := rest } := by
  cases h : s.script with
  | nil => exact .inl ⟨rfl, step_nil h⟩
  | cons m rest => exact .inr ⟨m, rest, rfl, step_cons h⟩

theorem engineStep_ready {s : State} (h : s.seq = .ready) : engineStep s = .next s := by
  simp [engineStep, h]

theorem engineStep_drained {s : State} {frames : Nat} (h : s.seq = .ingesting frames) (hq : s.evq = []) :
    engineStep s = .next { s with seq := seqAfterDrain frames } := by
  simp [engineStep, h, State.evqTryPop, hq]

theorem engineStep_pop {s : State} {frames : Nat} {r : Record} {rest : List Record}
    (h : s.seq = .ingesting frames) (hq : s.evq = r :: rest) :
    engineStep s = exec (decodeRecord r) { s with evq := rest } := by
  simp [engineStep, h, State.evqTryPop, hq]

/-- The frame of a micro-step: the operation FRAME, then the sequencer moves on. -/
theorem engineStep_frame {s u : State} {k frames : Nat} (h : s.seq = .rendering k frames)
    (hf : exec (.frame k) s = .next u) :
    engineStep s = .next { u with seq := seqAfterFrame k frames } := by
  simp [engineStep, h, hf]

theorem engineStep_frame_fault {s : State} {k frames : Nat} {f : Fault} (h : s.seq = .rendering k frames)
    (hf : exec (.frame k) s = .fault f) : engineStep s = .fault f := by
  simp [engineStep, h, hf]

end Sys2Proof.Machine
end

