-- ==== Sys2Proof/Tests/Slice0.lean ====
section
/-! SUPPORT. The model's own tests: expected values are those of spec/95_test_vectors.md and of the rules' own examples. Then, for each statement with hypotheses, a named state and operands that meet them all (witness_…). -/

namespace Sys2Proof.Tests

open Sys2Proof.Machine

/-! ### Helpers -/

/-- One reading of the next state of an answer. -/
def after {α : Type} (a : Answer) (f : State → α) : Option α :=
  match a with
  | .next s => some (f s)
  | .fault _ => none
  | .refused _ => none

/-- Whether an operation completes. -/
def completes (a : Answer) : Bool := (after a fun _ => ()).isSome

/-- The reset state with one note set and the counter at `t`. -/
def withNote (i : NoteIx) (n : Note) (t : Nat) : State := { State.reset.setNote i n with tick := t }

/-- The configuration TOY of 95_test_vectors.md. -/
def toy (w : Wave) (c : Nat) : Cfg :=
  ⟨.rat (mkRat 1 2), .rat (mkRat 1 2), .rat (mkRat 1 2), .rat (mkRat 1 2), .rat 1, .rat (mkRat 1 2), w, 8, c⟩

/-- The configuration of the floor boundary vectors V-ENV-19 and V-ENV-20. -/
def floorCfg : Cfg := ⟨.rat 1, .rat 1, .rat 1, .rat 1, .rat 440, .rat (mkRat 1 10), .triangle, 10000, 1⟩

def held : Note := ⟨true, true, 0, 0⟩
def tail : Note := ⟨false, true, 0, 44100⟩

/-- No stream. -/
def closed : State := { State.reset with stream := .absent }

/-- A FILL of two frames in its drain, one record waiting, the engine to move. -/
def draining : State :=
  { State.reset with seq := .ingesting 2, evq := [⟨144#8, 69#8, 127#8⟩] }

/-! ### Well-formedness and decoding -/

theorem test_wf_refuses_evOther_noteOn : (Instr.evOther 144#8 69#8 0#8).wf = false := by decide
theorem test_wf_refuses_evOther_noteOff : (Instr.evOther 128#8 69#8 0#8).wf = false := by decide
theorem test_wf_refuses_negative_lifetime : (Instr.ads (.rat (mkRat (-1) 2))).wf = false := by decide
theorem test_wf_accepts_zero_lifetime : (Instr.ads (.rat 0)).wf = true := by decide

/-- R86: 10010000 01000101 01111111. -/
theorem test_decode_noteOn : decodeTableWord 24 0b100100000100010101111111 = some (.noteOn 69#8 127#8) := by decide
/-- R87: 10000000 01000101 00000000. -/
theorem test_decode_noteOff : decodeTableWord 24 0b100000000100010100000000 = some (.noteOff 69#8 0#8) := by decide
/-- R88, V-DEC-8: 10000001 01000101 00000000. -/
theorem test_decode_evOther : decodeTableWord 24 0b100000010100010100000000 = some (.evOther 129#8 69#8 0#8) := by decide
/-- R89: 00. -/
theorem test_decode_sine : decodeTableWord 8 0b00 = some (.sine (.turns (.rat 0) 0)) := by decide
/-- R89: 01. -/
theorem test_decode_triangle : decodeTableWord 8 0b01 = some (.triangle (.turns (.rat 0) 0)) := by decide
/-- R89: 10. -/
theorem test_decode_square : decodeTableWord 8 0b10 = some (.square (.turns (.rat 0) 0)) := by decide
/-- R89: 11. -/
theorem test_decode_sawtooth : decodeTableWord 8 0b11 = some (.sawtooth (.turns (.rat 0) 0)) := by decide
/-- R60: a partial record cannot be expressed. -/
theorem test_decode_partial : decode [144#8, 69#8] = .error (.partialRecord 2) := by rfl
/-- R81, R89, R90: the rows without a record. -/
theorem test_encode_not_encoded :
    [Instr.sine (.turns (.rat 0) 0), .triangle (.turns (.rat 0) 0), .square (.turns (.rat 0) 0), .sawtooth (.turns (.rat 0) 0),
      .openStream { rate := 44100, channels := 2 }, .push ⟨144#8, 69#8, 0#8⟩, .fill 4, .closeStream,
      .press 69#8 0, .release 69#8 0, .deactivate 69#8, .ads (.rat 0), .env 69 0, .freq 69, .osc (.turns (.rat 0) 0),
      .ingest, .frame 0].map encode = List.replicate 17 none := by decide

/-! ### Events and notes -/

/-- R137's example. -/
theorem test_noteOn : after (exec (.noteOn 69#8 127#8) State.reset) (fun s => s.note 69) = some held := by decide
/-- V-DEC-5. -/
theorem test_noteOn_bad_index :
    after (exec (.noteOn 128#8 64#8) State.reset) (fun s => s.report) = some [⟨.invalidNoteIndex, 128#8, 0⟩] := by decide
/-- R138's example. -/
theorem test_noteOff :
    after (exec (.noteOff 69#8 0#8) (withNote 69 held 44100)) (fun s => s.note 69) = some tail := by decide
/-- R139: `[176, 200, 0]` raises nothing. -/
theorem test_evOther : after (exec (.evOther 176#8 200#8 0#8) State.reset) (fun s => s.report) = some [] := by decide
/-- V-NS-2. -/
theorem test_press_held :
    after (exec (.press 69#8 8820) (withNote 69 ⟨true, true, 4410, 0⟩ 8820)) (fun s => s.note 69)
      = some ⟨true, true, 4410, 0⟩ := by decide
/-- V-NS-5. -/
theorem test_press_retriggers :
    after (exec (.press 69#8 46000) (withNote 69 ⟨false, true, 4410, 44100⟩ 46000)) (fun s => s.note 69)
      = some ⟨true, true, 46000, 44100⟩ := by decide
/-- V-NS-4. -/
theorem test_release_again :
    after (exec (.release 69#8 45000) (withNote 69 ⟨false, true, 4410, 44100⟩ 45000)) (fun s => s.note 69)
      = some ⟨false, true, 4410, 45000⟩ := by decide
/-- V-NS-8. -/
theorem test_release_idle :
    after (exec (.release 10#8 99) State.reset) (fun s => s.note 10) = some ⟨false, false, 0, 99⟩ := by decide
/-- V-NS-9. -/
theorem test_deactivate :
    after (exec (.deactivate 69#8) (withNote 69 ⟨false, true, 4410, 44100⟩ 50000)) (fun s => s.note 69)
      = some ⟨false, false, 4410, 44100⟩ := by decide

/-! ### Ingestion -/

/-- V-ING-2. -/
theorem test_ingest_goes_on_after_bad_index :
    after (exec .ingest { State.reset with tick := 9, evq := [⟨144#8, 130#8, 1#8⟩, ⟨144#8, 5#8, 1#8⟩] })
        (fun s => (s.report, s.note 5, s.evq))
      = some ([⟨.invalidNoteIndex, 130#8, 9⟩], ⟨true, true, 9, 0⟩, []) := by decide
/-- V-ING-4. -/
theorem test_ingest_off_on :
    after (exec .ingest { withNote 7 ⟨true, true, 3, 0⟩ 20 with evq := [⟨128#8, 7#8, 0#8⟩, ⟨144#8, 7#8, 0#8⟩] })
        (fun s => (s.note 7, s.tick))
      = some (⟨true, true, 20, 20⟩, 20) := by decide

/-! ### Oscillators and frequency -/

/-- R121: `SINE(π / 6) = 0.5`. -/
theorem test_sine_sixth :
    after (exec (.sine (.turns (.rat (mkRat 1 12)) 0)) closed) (fun s => s.ret) = some (.value (.ofRat (mkRat 1 2))) := by
  decide +kernel
/-- V-OSC-6: `SINE(3π / 2) = -1`. -/
theorem test_sine_three_quarters :
    after (exec (.sine (.turns (.rat (mkRat 3 4)) 0)) closed) (fun s => s.ret) = some (.value (.ofRat (-1))) := by
  decide +kernel
/-- V-OSC-12. -/
theorem test_triangle :
    after (exec (.triangle (.turns (.rat (mkRat 110 441)) 0)) closed) (fun s => s.ret)
      = some (.value (.ofRat (mkRat 440 441))) := by decide +kernel
/-- V-OSC-10: `TRIANGLE(-π/2) = -1`. -/
theorem test_triangle_negative :
    after (exec (.triangle (.turns (.rat (mkRat (-1) 4)) 0)) closed) (fun s => s.ret) = some (.value (.ofRat (-1))) := by
  decide +kernel
/-- V-OSC-4: `SQUARE(π) = 1`, at the zero of the sine. -/
theorem test_square_at_zero :
    after (exec (.square (.turns (.rat (mkRat 1 2)) 0)) closed) (fun s => s.ret) = some (.value (.ofRat 1)) := by
  decide +kernel
/-- V-OSC-6: `SQUARE(3π/2) = -1`. -/
theorem test_square_low :
    after (exec (.square (.turns (.rat (mkRat 3 4)) 0)) closed) (fun s => s.ret) = some (.value (.ofRat (-1))) := by
  decide +kernel
/-- V-OSC-10b: `SAWTOOTH(-π) = 1/2`. -/
theorem test_sawtooth_negative :
    after (exec (.sawtooth (.turns (.rat (mkRat (-1) 2)) 0)) closed) (fun s => s.ret)
      = some (.value (.ofRat (mkRat 1 2))) := by decide +kernel
/-- V-OSC-9: `SAWTOOTH(4π) = -1`. -/
theorem test_sawtooth_period :
    after (exec (.sawtooth (.turns (.rat 2) 0)) closed) (fun s => s.ret) = some (.value (.ofRat (-1))) := by decide +kernel
/-- R125's example: the default is TRIANGLE. -/
theorem test_osc_default :
    after (exec (.osc (.turns (.rat (mkRat 1 4)) 0)) State.reset) (fun s => s.ret) = some (.value (.ofRat 1)) := by
  decide +kernel
/-- V-OSC-3 with WAVE = SAWTOOTH. -/
theorem test_osc_selects :
    after (exec (.osc (.turns (.rat (mkRat 1 4)) 0)) { State.reset with cfg := toy .sawtooth 1 }) (fun s => s.ret)
      = some (.value (.ofRat (mkRat (-3) 4))) := by decide +kernel
/-- V-FRQ-4. -/
theorem test_freq_octaves_down :
    after (exec (.freq 21) State.reset) (fun s => s.ret) = some (.value (.ofRat (mkRat 55 2))) := by decide +kernel
/-- R130 with `i` = 0: `440 * 2^(-69/12) = (440/64) * 2^(3/12)`. -/
theorem test_freq_zero :
    after (exec (.freq 0) State.reset) (fun s => s.ret) = some (.value (.mono (.rat (mkRat 55 8)) 3)) := by decide +kernel

/-! ### Envelope -/

/-- V-ADS-4. -/
theorem test_ads_decay :
    after (exec (.ads (.rat (mkRat 33 10))) State.reset) (fun s => s.ret) = some (.value (.ofRat (mkRat 1 2))) := by
  decide +kernel
/-- V-ADS-16: with `decay` = 0 the second branch is never taken. -/
theorem test_ads_no_decay :
    after (exec (.ads (.rat (mkRat 1000001 10000000)))
        { State.reset with cfg := { resetCfg with attack := .rat (mkRat 1 10), decay := .rat 0, sustain := .rat (mkRat 1 4) } })
        (fun s => s.ret)
      = some (.value (.ofRat (mkRat 1 4))) := by decide +kernel
/-- V-ENV-8. -/
theorem test_env_tail :
    after (exec (.env 69 52919) (withNote 69 tail 52919)) (fun s => (s.ret, s.note 69))
      = some (.value (.ofRat (mkRat 202861 1944810000)), tail) := by decide +kernel
/-- V-ENV-19: exactly the floor deactivates. -/
theorem test_env_floor :
    after (exec (.env 69 1) { withNote 69 ⟨false, true, 0, 1⟩ 1 with cfg := floorCfg }) (fun s => (s.ret, s.note 69))
      = some (.value .zero, ⟨false, false, 0, 1⟩) := by decide +kernel

/-! ### Frames and fills -/

/-- V-FRM-1. -/
theorem test_frame :
    after (exec (.frame 25) (withNote 69 held 25)) (fun s => (s.outRead 50, s.outRead 51, s.outRead 52, s.tick))
      = some (some (.ofRat (mkRat 55 777924)), some (.ofRat (mkRat 55 777924)), none, 26) := by decide +kernel
/-- V-FRM-3. -/
theorem test_frame_two_voices :
    after (exec (.frame 0) { (withNote 69 held 1).setNote 81 held with cfg := toy .triangle 1 })
        (fun s => s.outRead 0)
      = some (some (.ofRat (mkRat 3 16))) := by decide +kernel
/-- V-FILL-1. -/
theorem test_fill :
    after (exec (.fill 2) { State.reset with evq := [⟨144#8, 69#8, 127#8⟩] }) (fun s => (s.out, s.tick))
      = some ([(0, .zero), (1, .zero), (2, .ofRat (mkRat 11 97240500)), (3, .ofRat (mkRat 11 97240500))], 2) := by
  decide +kernel
/-- V-FILL-2. -/
theorem test_fill_nothing :
    after (exec (.fill 0) { State.reset with tick := 6, evq := [⟨144#8, 69#8, 0#8⟩] }) (fun s => (s.out, s.tick, s.note 69))
      = some ([], 6, ⟨true, true, 6, 0⟩) := by decide
/-- R155: the increment from 2^TICK_W - 1 is the fault. -/
theorem test_frame_overflow :
    (match exec (.frame 0) { State.reset with tick := 15, impl := ⟨some 4, none⟩ } with
      | .fault .tickOverflow => true
      | .next _ => false
      | .refused _ => false) = true := by decide +kernel

/-! ### Host commands and steps -/

/-- V-RST-2. -/
theorem test_open_refuses :
    (completes (exec (.openStream { rate := 44100, channels := 2, attack := some (.rat 0) }) closed),
      completes (exec (.openStream { rate := 0, channels := 2 }) closed),
      completes (exec (.openStream { rate := 44100, channels := 2, sustain := some (.rat (mkRat 3 2)) }) closed),
      completes (exec (.openStream { rate := 44100, channels := 2, decay := some (.rat 0) }) closed))
      = (false, false, false, true) := by decide
/-- R7: `master_volume` is any real, also one known by its name only. -/
theorem test_open_any_volume :
    after (exec (.openStream { rate := 8, channels := 1, masterVolume := some (.named 3) }) closed)
        (fun s => s.cfg.masterVolume)
      = some (.named 3) := by decide
/-- R200 corner case (b): records already queued stay. -/
theorem test_open_keeps_queue :
    after (exec (.openStream { rate := 8, channels := 1 }) { closed with tick := 5, evq := [⟨144#8, 1#8, 1#8⟩] })
        (fun s => (s.tick, s.evq, s.stream))
      = some (0, [⟨144#8, 1#8, 1#8⟩], .opened) := by decide
/-- R56: at the tail. -/
theorem test_push :
    after (exec (.push ⟨128#8, 69#8, 0#8⟩) draining) (fun s => s.evq)
      = some [⟨144#8, 69#8, 127#8⟩, ⟨128#8, 69#8, 0#8⟩] := by decide
/-- R56: a full queue does not take the record. -/
theorem test_push_full :
    after (exec (.push ⟨128#8, 69#8, 0#8⟩) { draining with impl := ⟨none, some 1⟩ }) (fun s => (s.evq, s.ret))
      = some ([⟨144#8, 69#8, 127#8⟩], .accepted false) := by decide
/-- R202: nothing survives. -/
theorem test_close :
    after (exec .closeStream { State.reset with evq := [⟨144#8, 1#8, 1#8⟩] }) (fun s => (s.stream, s.evq))
      = some (.absent, []) := by decide
/-- R151: the drain's micro-step applies the record; the last one moves to Rendering. -/
theorem test_step_drains :
    after (step draining) (fun s => (s.note 69, s.evq, s.seq)) = some (held, [], .ingesting 2) := by decide
/-- R65: a record pushed after the queue was found empty waits. -/
theorem test_step_push_after_drain :
    after (Sys2Proof.core.run 2
        { draining with evq := [], script := [.engine, .perform (.push ⟨144#8, 69#8, 0#8⟩)] })
        (fun s => (s.note 69, s.evq, s.seq))
      = some (Note.idle, [⟨144#8, 69#8, 0#8⟩], .rendering 0 2) := by decide
/-- The first record after reset, placed by `withFetchWord`. -/
theorem test_fetch_word :
    after (step (State.reset.withFetchWord 24 0x90457F)) (fun s => s.note 69) = some held := by decide

/-! ### Witnesses -/

theorem witness_EventRecordRoundTrip :
    (Instr.evOther 145#8 255#8 0#8).wf = true ∧ encode (.evOther 145#8 255#8 0#8) = some ⟨145#8, 255#8, 0#8⟩ ∧
      (Instr.noteOn 127#8 1#8).wf = true ∧ encode (.noteOn 127#8 1#8) = some ⟨144#8, 127#8, 1#8⟩ := by decide

theorem witness_StepRunsTheDecodedOperation :
    ({ State.reset with script := [.perform (.freq 69)] } : State).script = .perform (.freq 69) :: [] ∧
      ({ draining with script := [.engine] } : State).seq = .ingesting 2 ∧
      ({ draining with script := [.engine] } : State).evq = ⟨144#8, 69#8, 127#8⟩ :: [] ∧
      ({ draining with script := [.engine] } : State).script = .engine :: [] ∧ draining.script = [] := by decide

/-- The script is `engine` then `hangUp` or empty, the queue of a drain is empty, frame 1 of 2 completes, and overflows in the
second state. -/
theorem witness_FillMicroSteps :
    (State.reset.Opened ∧ State.reset.IsReady ∧
      ({ State.reset with script := [.request 0] } : State).script = .request 0 :: []) ∧
    (({ draining with evq := [], script := [.engine, .hangUp] } : State).seq = .ingesting 2 ∧
      ({ draining with evq := [], script := [.engine, .hangUp] } : State).script = .engine :: [.hangUp] ∧
      ({ draining with evq := [] } : State).script = []) ∧
    (completes (exec (.frame 1) { State.reset with seq := .rendering 1 2, script := [.hangUp] }) = true) ∧
    (after (exec (.frame 1) { State.reset with seq := .rendering 1 2, tick := 15, impl := ⟨some 4, none⟩ }) fun _ => ())
      = none ∧
    State.reset.seq = .ready ∧ State.reset.script = [] := by decide +kernel

theorem witness_PlacedWordRunsNext : decodeTableWord 8 3 = some (.sawtooth (.turns (.rat 0) 0)) := by decide

theorem witness_MicroStepsMakeTheWholeFill :
    ({ State.reset with
        evq := [⟨144#8, 69#8, 1#8⟩]
        script := [.request 1, .engine, .engine, .engine, .hangUp] } : State).Opened ∧
      State.reset.IsReady ∧
      [Move.request 1, .engine, .engine, .engine, .hangUp]
        = .request 1 :: (List.replicate (1 + 1 + 1) .engine ++ [.hangUp]) := by decide

theorem witness_PushDuringDrainTakenNowOrNext :
    ({ draining with evq := [] } : State).Opened ∧ ({ draining with evq := [] } : State).evqHasRoom = true ∧
      ({ draining with evq := [] } : State).seq = .ingesting 2 := by decide

theorem witness_PressResult :
    State.reset.Opened ∧ 128 ≤ (128#8).toNat ∧ (127 : NoteIx).val = (127#8).toNat ∧
      (State.reset.note 127).pressed = false ∧ ((withNote 0 held 5).note 0).pressed = true ∧
      (0 : NoteIx).val = (0#8).toNat ∧ (withNote 0 held 5).Opened := by decide

theorem witness_ReleaseResult :
    State.reset.Opened ∧ 128 ≤ (255#8).toNat ∧ (127 : NoteIx).val = (127#8).toNat := by decide

theorem witness_DeactivateResult :
    (withNote 69 tail 52920).Opened ∧ 128 ≤ (128#8).toNat ∧ (69 : NoteIx).val = (69#8).toNat := by decide

theorem witness_NoteTransitionRelation :
    State.reset.Opened ∧ (State.reset.note 69).state = .idle ∧ ((withNote 69 held 1).note 69).state = .pressed ∧
      ((withNote 69 tail 52919).note 69).state = .releasedActive ∧
      (Scalar.rat Config.floor).lt (releaseValue resetCfg tail 52919) = true ∧
      (releaseValue resetCfg tail 52920).le (.rat Config.floor) = true ∧
      releaseValue floorCfg ⟨false, true, 0, 1⟩ 1 = .rat Config.floor := by decide +kernel

theorem witness_NoteOperationsFrame :
    completes (exec (.press 127#8 3) State.reset) = true ∧ completes (exec (.release 128#8 3) State.reset) = true ∧
      completes (exec (.deactivate 0#8) State.reset) = true ∧ completes (exec (.noteOn 128#8 0#8) State.reset) = true ∧
      completes (exec (.noteOff 127#8 0#8) State.reset) = true ∧
      completes (exec (.evOther 1#8 200#8 0#8) State.reset) = true := by decide

theorem witness_RecordOperationsResult : State.reset.Opened := by decide

theorem witness_IngestAppliesRecordsInOrder :
    State.reset.Opened ∧ State.reset.evq = [] ∧ draining.Opened ∧ draining.evq = ⟨144#8, 69#8, 127#8⟩ :: [] := by decide

theorem witness_OffendingRecordsLeaveOnlyTheReport :
    draining.Opened ∧ Record.offends ⟨144#8, 128#8, 0#8⟩ = true ∧ Record.offends ⟨144#8, 127#8, 0#8⟩ = false ∧
      Record.offends ⟨176#8, 200#8, 0#8⟩ = false := by decide

theorem witness_OscResult : State.reset.Opened ∧ ({ State.reset with cfg := toy .square 1 } : State).Opened := by decide

theorem witness_OscillatorsAreBounded :
    after (exec (.osc (.turns (.rat (mkRat 3 4)) 0)) State.reset) (fun s => s.ret) = some (.value (.ofRat (-1))) := by
  decide +kernel

theorem witness_ValueOperationsFrame :
    completes (exec (.sine (.radians (.rat 1))) State.reset) = true ∧ completes (exec (.triangle (.radians (.rat 1))) State.reset) = true ∧
      completes (exec (.square (.radians (.rat 1))) State.reset) = true ∧
      completes (exec (.sawtooth (.radians (.rat 1))) State.reset) = true ∧
      completes (exec (.osc (.radians (.rat 1))) State.reset) = true ∧ completes (exec (.ads (.rat 0)) State.reset) = true ∧
      completes (exec (.freq 127) State.reset) = true := by decide +kernel

theorem witness_FreqResult : State.reset.Opened := by decide

theorem witness_FreqOctavesAreExact :
    State.reset.Opened ∧ (81 : NoteIx).val = (69 : NoteIx).val + 12 ∧ (0 : NoteIx).val < (127 : NoteIx).val ∧
      after (exec (.freq 81) State.reset) (fun s => s.ret) = some (.value (.ofRat 880)) ∧
      State.reset.cfg.referenceFrequency = .rat 440 := by decide +kernel

theorem witness_AdsResult : State.reset.Opened := by decide

theorem witness_AdsCurveShape :
    resetCfg.legal = true ∧ 0 < resetCfg.decay.toReal ∧
      resetCfg.attack.toReal + resetCfg.decay.toReal < (Scalar.rat 6).toReal ∧
      ({ resetCfg with sustain := .rat 1 } : Cfg).legal = true ∧
      ({ resetCfg with sustain := .rat 1 } : Cfg).sustain.toReal = 1 ∧
      resetCfg.attack.toReal ≤ (Scalar.rat 1).toReal := by
  refine ⟨by decide, ?_, ?_, by decide, ?_, ?_⟩ <;>
    norm_num [resetCfg, Config.attack, Config.decay, Rat.mkRat_eq_div]

theorem witness_EnvResult :
    (State.reset.note 69).active = false ∧ ((withNote 69 held 1).note 69).active = true ∧
      ((withNote 69 held 1).note 69).pressed = true ∧ ((withNote 69 tail 1).note 69).active = true ∧
      ((withNote 69 tail 1).note 69).pressed = false ∧ (withNote 69 tail 1).Opened := by decide

theorem witness_EnvelopeStaysInUnitInterval :
    ((withNote 69 tail 52919).note 69).tickPressed ≤ 52919 ∧ ((withNote 69 tail 52919).note 69).tickReleased ≤ 52919 ∧
      after (exec (.env 69 52919) (withNote 69 tail 52919)) (fun s => s.ret)
        = some (.value (.ofRat (mkRat 202861 1944810000))) := by decide +kernel

theorem witness_LateReleaseTailNeverRises :
    resetCfg.legal = true ∧ tail.pressed = false ∧ tail.tickPressed ≤ tail.tickReleased ∧ tail.tickReleased ≤ 44100 ∧
      44100 ≤ 52919 ∧ resetCfg.attack.toReal * resetCfg.rate ≤ ((tail.tickReleased - tail.tickPressed : Nat) : ℝ) := by
  refine ⟨by decide, by decide, by decide, by decide, by decide, ?_⟩
  norm_num [resetCfg, tail, Config.attack, Rat.mkRat_eq_div]

/-- 90 C1: the same release during the attack does rise (V-ENV-12 and V-ENV-13). -/
theorem test_early_release_rises :
    envValue resetCfg ⟨false, true, 0, 441⟩ 441 = .rat (mkRat 1 80) ∧
      envValue resetCfg ⟨false, true, 0, 441⟩ 882 = .rat (mkRat 19 800) := by decide +kernel

theorem witness_ReleaseTailEnds :
    (withNote 69 tail 52920).Opened ∧ (withNote 69 tail 52920).HasRoomFor 1 ∧
      ((withNote 69 tail 52920).note 69).tickPressed ≤ (withNote 69 tail 52920).tick ∧
      ((withNote 69 tail 52920).note 69).pressed = false ∧
      (((withNote 69 tail 52920).note 69).tickReleased : ℝ) + (withNote 69 tail 52920).cfg.release.toReal * resetCfg.rate
        ≤ ((withNote 69 tail 52920).tick : ℝ) := by
  have h : ((withNote 69 tail 52920).note 69).tickReleased = 44100 := by decide
  refine ⟨by decide, by decide, by decide, by decide, ?_⟩
  rw [h]
  norm_num [withNote, State.setNote, State.reset, resetCfg, Config.release, Rat.mkRat_eq_div]

theorem witness_HeldNoteStaysInTheMix :
    ((withNote 69 held 441000).note 69).pressed = true ∧
      completes (exec (.env 69 441000) (withNote 69 held 441000)) = true ∧
      completes (exec (.frame 0) (withNote 69 held 441000)) = true := by decide +kernel

theorem witness_OnAndOffInOneBatchAreSilent :
    State.reset.Opened ∧ (127 : NoteIx).val = (127#8).toNat ∧ (State.reset.note 127).pressed = false ∧
      completes (exec .ingest { State.reset with evq := [⟨144#8, 127#8, 1#8⟩, ⟨128#8, 127#8, 2#8⟩] }) = true ∧
      completes (exec (.frame 0) (withNote 127 ⟨false, true, 0, 0⟩ 0)) = true := by decide +kernel

theorem witness_EnvFrame : completes (exec (.env 69 52920) (withNote 69 tail 52920)) = true := by decide +kernel

theorem witness_FrameMixesEveryActiveNote :
    (withNote 69 held 25).Opened ∧ (withNote 69 held 25).HasRoomFor 1 ∧ 1 < (withNote 69 held 25).cfg.channels ∧
      ∀ ch : Nat, ch < 2 → 0 ≠ 25 * 2 + ch := by
  refine ⟨by decide, by decide, by decide, ?_⟩
  intro ch _
  omega

theorem witness_RenderFrame :
    completes (exec (.frame 0) State.reset) = true ∧ completes (exec (.fill 1) State.reset) = true := by decide +kernel

theorem witness_FrameFaultsExactlyAtTickOverflow :
    ({ State.reset with tick := 15, impl := ⟨some 4, none⟩ } : State).Opened ∧
      ({ State.reset with tick := 15, impl := ⟨some 4, none⟩ } : State).impl.tickW = some 4 ∧ 2 ^ 4 ≤ 15 + 1 ∧
      ¬ 2 ^ 4 ≤ 14 + 1 := by decide

theorem witness_FillIsIngestThenFrames :
    State.reset.Opened ∧ State.reset.IsReady ∧ completes (exec (.fill 0) State.reset) = true := by decide

theorem witness_FillCompletesWithAFullBuffer :
    ({ State.reset with tick := 13, impl := ⟨some 4, none⟩ } : State).Opened ∧
      ({ State.reset with tick := 13, impl := ⟨some 4, none⟩ } : State).IsReady ∧
      ({ State.reset with tick := 13, impl := ⟨some 4, none⟩ } : State).HasRoomFor 2 ∧
      ¬ ({ State.reset with tick := 13, impl := ⟨some 4, none⟩ } : State).HasRoomFor 3 := by decide

theorem witness_FramesDoNotSeeTheQueue : completes (exec (.frame 3) draining) = true := by decide +kernel

theorem witness_OpenAcceptsExactlyLegalConfigurations :
    closed.stream = .absent ∧ closed.IsReady ∧ State.reset.stream = .opened ∧ State.reset.IsReady ∧ (OpenArgs.cfg { rate := 1, channels := 1, decay := some (.rat 0) }).legal = true ∧
      (OpenArgs.cfg { rate := 0, channels := 1 }).legal = false := by decide

theorem witness_OpenResult :
    closed.stream = .absent ∧ closed.IsReady ∧ (OpenArgs.cfg { rate := 8, channels := 1, attack := some (.rat (mkRat 1 2)) }).legal = true := by decide

theorem witness_ResetValues : closed.stream = .absent ∧ closed.IsReady := by decide

theorem witness_PushResult :
    State.reset.chan = .connected ∧ State.reset.impl.qdepth = none ∧
      ({ draining with impl := ⟨none, some 2⟩ } : State).evq.length < 2 ∧
      ({ draining with impl := ⟨none, some 1⟩ } : State).impl.qdepth = some 1 ∧ 1 ≤ draining.evq.length ∧
      ({ State.reset with chan := .closed } : State).chan = .closed := by decide

theorem witness_CloseResult : State.reset.stream = .opened ∧ State.reset.IsReady := by decide

theorem witness_FillIsNotReentrant : draining.Opened ∧ draining.seq ≠ .ready := by decide

theorem witness_TickMovesOnlyByFrames :
    completes (exec (.frame 0) State.reset) = true ∧ completes (exec (.fill 2) State.reset) = true ∧
      completes (exec (.openStream { rate := 8, channels := 1 }) closed) = true ∧
      completes (exec .ingest State.reset) = true := by decide +kernel

theorem witness_ConfigurationIsConstant :
    completes (step State.reset) = true ∧
      completes (step { closed with script := [.perform (.openStream { rate := 8, channels := 1 })] }) = true := by
  decide

theorem witness_QueueWriters :
    completes (exec (.push ⟨144#8, 1#8, 1#8⟩) draining) = true ∧ completes (exec .ingest draining) = true ∧
      completes (exec (.fill 0) State.reset) = true ∧ completes (exec .closeStream State.reset) = true ∧
      completes (exec (.freq 69) State.reset) = true := by decide

theorem witness_FlagAndBufferWriters :
    completes (exec (.env 69 52920) (withNote 69 tail 52920)) = true ∧
      completes (exec (.frame 0) (withNote 69 tail 52920)) = true ∧
      completes (exec (.press 69#8 1) State.reset) = true := by decide +kernel

theorem witness_ReportIsNeverRead :
    completes (exec (.noteOn 128#8 0#8) State.reset) = true ∧
      ∀ a : OpenArgs, Instr.noteOn 128#8 0#8 ≠ .openStream a := by
  refine ⟨by decide, ?_⟩
  intro a
  nofun

theorem witness_ClosedChannelLooksEmpty :
    completes (engineStep draining) = true ∧ completes (engineStep { draining with evq := [] }) = true := by decide

theorem witness_OnlyTickOverflowFaults :
    (match exec (.fill 2) { State.reset with tick := 14, impl := ⟨some 4, none⟩ } with
      | .fault .tickOverflow => true
      | .next _ => false
      | .refused _ => false) = true := by decide +kernel

/-- Whether an operation is refused as `r`. -/
def refusedAs (r : Refusal) (a : Answer) : Bool :=
  match a with
  | .refused r' => decide (r' = r)
  | .next _ => false
  | .fault _ => false

theorem witness_RefusalsAreTheListedMoves :
    refusedAs .noStream (exec (.fill 1) closed) = true ∧
      refusedAs .illegalConfig (exec (.openStream { rate := 0, channels := 1 }) closed) = true ∧
      refusedAs .illegalConfig (exec .ingest { State.reset with cfg := { resetCfg with attack := .rat 0 } }) = true ∧
      refusedAs .fillInProgress (exec (.fill 1) draining) = true ∧
      refusedAs .streamOpen (exec (.openStream { rate := 8, channels := 1 }) State.reset) = true := by decide

theorem witness_EveryStepKeepsTheInvariant :
    (State.reset.seq.sound = true ∧ State.reset.report.all ReportEntry.sound = true ∧
      Memory.wf State.reset.out = true ∧ State.reset.script.all Move.inRun = true ∧ State.reset.cfg.legal = true ∧
      completes (step State.reset) = true) ∧
    ∀ i : NoteIx, (State.reset.note i).Sound State.reset.tick := by decide +kernel

end Sys2Proof.Tests
end

section
/-! SUPPORT. What OPEN answers, case by case (00 R7, 70 R200, R221), and the statement of 00 R7 about it. -/

namespace Sys2Proof.Machine

@[simp] theorem State.created_stream (s : State) (c : Cfg) : (s.created c).stream = .opened := rfl
@[simp] theorem State.created_cfg (s : State) (c : Cfg) : (s.created c).cfg = c := rfl

theorem exec_openStream (a : OpenArgs) (s : State) : exec (.openStream a) s = execOpenStream a s := rfl

theorem created_opened (s : State) {c : Cfg} (hc : c.legal = true) : (s.created c).Opened := ⟨rfl, hc⟩

/-- From a Ready state with no stream the answer of OPEN turns on the configuration alone. -/
theorem exec_openStream_of_absent {s : State} (habsent : s.stream = .absent) (hready : s.IsReady) (a : OpenArgs) :
    exec (.openStream a) s = if a.cfg.legal then .next (s.created a.cfg) else .refused .illegalConfig := by
  simp [exec_openStream, execOpenStream, habsent, hready]

/-- From a Ready state with a stream open the configuration does not matter. -/
theorem exec_openStream_of_opened {s : State} (hopened : s.stream = .opened) (hready : s.IsReady) (a : OpenArgs) :
    exec (.openStream a) s = .refused .streamOpen := by
  simp [exec_openStream, execOpenStream, hopened, hready]

/-- Settles O44: `legal_iff` reads the bounds of 00 R7 as reals, and OPEN answers by them where no stream is open. -/
theorem openAcceptsExactlyLegalConfigurations : Obligations.OpenAcceptsExactlyLegalConfigurations := by
  refine ⟨fun s a habsent hready => ?_, fun s a hopened hready => exec_openStream_of_opened hopened hready a⟩
  rw [exec_openStream_of_absent habsent hready, ← legal_iff]
  constructor
  · intro hlegal
    exact ⟨s.created a.cfg, if_pos hlegal, created_opened s hlegal, s.created_cfg a.cfg⟩
  · intro hillegal
    exact if_neg hillegal

end Sys2Proof.Machine
end

section
/-! SUPPORT. What an operation, and a micro-step of the engine, can leave when it completes: said once, with its guards. -/

namespace Sys2Proof.Machine

/-- The next states of each operation, with the condition under which it is reached: `exec` read backwards. -/
inductive Completed (s : State) : Instr → State → Prop
  | noteOn (n v : Byte) (ho : s.Opened) : Completed s (.noteOn n v) (s.pressAt n s.tick)
  | noteOff (n v : Byte) (ho : s.Opened) : Completed s (.noteOff n v) (s.releaseAt n s.tick)
  | evOther (st n v : Byte) (ho : s.Opened) : Completed s (.evOther st n v) s
  | sine (x : Phase) : Completed s (.sine x) (s.giveValue (sineAt x))
  | triangle (x : Phase) : Completed s (.triangle x) (s.giveValue (triangleAt x))
  | square (x : Phase) : Completed s (.square x) (s.giveValue (squareAt x))
  | sawtooth (x : Phase) : Completed s (.sawtooth x) (s.giveValue (sawtoothAt x))
  | openStream (a : OpenArgs) (hr : s.IsReady) (habsent : s.stream = .absent) (hlegal : a.cfg.legal = true) :
      Completed s (.openStream a) (s.created a.cfg)
  | pushAccepted (r : Record) (hroom : s.evqHasRoom = true) :
      Completed s (.push r) { s.evqAppend r with ret := .accepted true }
  | pushRefused (r : Record) (hfull : s.evqHasRoom = false) :
      Completed s (.push r) { s with ret := .accepted false }
  | fill (frames : Nat) {u : State} (ho : s.Opened) (hr : s.IsReady)
      (hrun : renderFrames frames 0 { s.ingested with out := [] } = .next u) : Completed s (.fill frames) u
  | closeStream (hopened : s.stream = .opened) (hr : s.IsReady) :
      Completed s .closeStream { s with stream := .absent, evq := [], chan := .connected }
  | press (i : Byte) (t : Nat) (ho : s.Opened) : Completed s (.press i t) (s.pressAt i t)
  | release (i : Byte) (t : Nat) (ho : s.Opened) : Completed s (.release i t) (s.releaseAt i t)
  | deactivate (i : Byte) (ho : s.Opened) : Completed s (.deactivate i) (s.deactivateAt i)
  | ads (l : Scalar) (ho : s.Opened) : Completed s (.ads l) (s.giveValue (ExactNum.ofScalar (adsAt s.cfg l)))
  | env (i : NoteIx) (t : Nat) (ho : s.Opened) :
      Completed s (.env i t) ((s.envAt i t).2.giveValue (ExactNum.ofScalar (s.envAt i t).1))
  | freq (i : NoteIx) (ho : s.Opened) : Completed s (.freq i) (s.giveValue (freqAt s.cfg i))
  | osc (x : Phase) (ho : s.Opened) : Completed s (.osc x) (s.giveValue (oscAt s.cfg.wave x))
  | ingest (ho : s.Opened) : Completed s .ingest s.ingested
  | frame (k : Nat) {u : State} (ho : s.Opened) (hrun : s.rendered k = .next u) : Completed s (.frame k) u

theorem completed_of_guarded {s u w : State} {i : Instr} (hc : s.Opened → Completed s i w)
    (h : s.onEngine (.next w) = .next u) : Completed s i u := by
  obtain ⟨ho, hw⟩ := onEngine_next_iff.1 h
  cases hw
  exact hc ho

theorem completed_openStream {s u : State} {a : OpenArgs} (h : execOpenStream a s = .next u) :
    Completed s (.openStream a) u := by
  unfold execOpenStream at h
  split_ifs at h with hr hopened hlegal
  cases h
  refine .openStream a (not_not.1 hr) ?_ hlegal
  cases hs : s.stream with
  | absent => rfl
  | opened => exact absurd hs hopened

theorem completed_push {s u : State} {r : Record} (h : execPush r s = .next u) : Completed s (.push r) u := by
  unfold execPush at h
  split_ifs at h with hroom
  · cases h
    exact .pushAccepted r hroom
  · cases h
    exact .pushRefused r (Bool.not_eq_true _ ▸ hroom)

theorem completed_closeStream {s u : State} (h : execCloseStream s = .next u) : Completed s .closeStream u := by
  unfold execCloseStream at h
  split_ifs at h with habsent hr
  cases h
  refine .closeStream ?_ hr
  cases hs : s.stream with
  | absent => exact absurd hs habsent
  | opened => rfl

theorem completed_fill {s u : State} {frames : Nat} (h : execFill frames s = .next u) :
    Completed s (.fill frames) u := by
  obtain ⟨ho, hrun⟩ := onEngine_next_iff.1 h
  split_ifs at hrun with hr
  exact .fill frames ho hr hrun

/-- Every operation that completes does so in one of the listed ways. -/
theorem completed_of_exec {i : Instr} {s u : State} (h : exec i s = .next u) : Completed s i u := by
  cases i with
  | noteOn n v => exact completed_of_guarded (.noteOn n v) h
  | noteOff n v => exact completed_of_guarded (.noteOff n v) h
  | evOther st n v => exact completed_of_guarded (.evOther st n v) h
  | sine x => cases h; exact .sine x
  | triangle x => cases h; exact .triangle x
  | square x => cases h; exact .square x
  | sawtooth x => cases h; exact .sawtooth x
  | openStream a => exact completed_openStream h
  | push r => exact completed_push h
  | fill frames => exact completed_fill h
  | closeStream => exact completed_closeStream h
  | press i t => exact completed_of_guarded (.press i t) h
  | release i t => exact completed_of_guarded (.release i t) h
  | deactivate i => exact completed_of_guarded (.deactivate i) h
  | ads l => exact completed_of_guarded (.ads l) h
  | env i t => exact completed_of_guarded (.env i t) h
  | freq i => exact completed_of_guarded (.freq i) h
  | osc x => exact completed_of_guarded (.osc x) h
  | ingest => exact completed_of_guarded .ingest h
  | frame k =>
    obtain ⟨ho, hrun⟩ := onEngine_next_iff.1 h
    exact .frame k ho hrun

/-- A frame that completes: the Note table after the scan, OUT with the frame written, `tick` one more. -/
theorem rendered_next {s u : State} {k : Nat} (h : s.rendered k = .next u) :
    u = { s with
      notes := (s.mixed s.tick).2.notes
      out := ((s.mixed s.tick).2.writeFrame k (s.mixed s.tick).1).out
      tick := s.tick + 1 } := by
  rcases rendered_cases s k with ⟨-, hn⟩ | ⟨-, hf⟩
  · rw [hn] at h
    cases h
    rfl
  · rw [hf] at h
    cases h

/-! `renderFrames` has no equations of Lean's own: to make them, Lean evaluates the scan of the 128 notes and runs out of
recursion depth. So the two equations here unfold its recursor, and other proofs cite them. -/

theorem renderFrames_succ_of_next {s w : State} {k : Nat} (h : s.rendered k = .next w) (count : Nat) :
    renderFrames (count + 1) k s = renderFrames count (k + 1) w := by
  delta renderFrames renderFrames._f
  dsimp only
  rw [h]

theorem renderFrames_succ_of_fault {s : State} {f : Fault} {k : Nat} (h : s.rendered k = .fault f) (count : Nat) :
    renderFrames (count + 1) k s = .fault f := by
  delta renderFrames renderFrames._f
  dsimp only
  rw [h]

/-- A run of frames that completes starts with a frame that does. -/
theorem renderFrames_succ_next {s u : State} {count k : Nat} (h : renderFrames (count + 1) k s = .next u) :
    ∃ w, s.rendered k = .next w ∧ renderFrames count (k + 1) w = .next u := by
  rcases rendered_cases s k with ⟨-, hn⟩ | ⟨-, hf⟩
  · rw [renderFrames_succ_of_next hn] at h
    exact ⟨_, hn, h⟩
  · rw [renderFrames_succ_of_fault hf] at h
    cases h

/-- A run of frames writes the Note table and OUT, and adds their number to `tick`. -/
theorem renderFrames_eq {u : State} (count : Nat) : ∀ {k : Nat} {s : State}, renderFrames count k s = .next u →
    u = { s with notes := u.notes, out := u.out, tick := s.tick + count } := by
  induction count with
  | zero =>
    intro k s h
    cases h
    rfl
  | succ count ih =>
    intro k s h
    obtain ⟨w, hw, hrest⟩ := renderFrames_succ_next h
    have hu := ih hrest
    rw [rendered_next hw] at hu
    rw [hu, Nat.add_assoc, Nat.add_comm 1]

/-- A FILL writes its INGEST's fields, the Note table and OUT, and adds the number of frames to `tick`. -/
theorem fill_eq {s u : State} {frames : Nat} (h : renderFrames frames 0 { s.ingested with out := [] } = .next u) :
    u = { s with
      notes := u.notes, out := u.out, evq := [], report := s.ingested.report, tick := s.tick + frames } := by
  have hu := renderFrames_eq frames h
  rw [ingested_eq s] at hu
  exact hu

/-- The operation of a record that completes applies its event at the present `tick`. -/
theorem exec_event_next {s u : State} {e : Event} (h : exec e.toInstr s = .next u) : u = s.applyEvent s.tick e := by
  cases e <;> (cases completed_of_exec h; rfl)

/-- The request of a FILL is accepted by a Ready engine with a stream, which goes to its drain with an empty buffer. -/
theorem acceptFill_next {s u : State} {frames : Nat} (h : s.acceptFill frames = .next u) :
    s.Opened ∧ s.IsReady ∧ u = { s with seq := .ingesting frames, out := [] } := by
  obtain ⟨ho, hu⟩ := onEngine_next_iff.1 h
  split_ifs at hu with hr
  cases hu
  exact ⟨ho, hr, rfl⟩

/-- Everything a micro-step that completes can do: nothing, end the drain, apply the oldest record, or render a frame. -/
theorem engineStep_next_cases {s u : State} (h : engineStep s = .next u) :
    u = s
      ∨ (∃ frames, s.seq = .ingesting frames ∧ u = { s with seq := seqAfterDrain frames })
      ∨ (∃ r rest, s.evq = r :: rest ∧ exec (decodeRecord r) { s with evq := rest } = .next u)
      ∨ ∃ k frames w, s.seq = .rendering k frames ∧ exec (.frame k) s = .next w
          ∧ u = { w with seq := seqAfterFrame k frames } := by
  obtain ⟨seq, hs⟩ : ∃ seq, s.seq = seq := ⟨_, rfl⟩
  cases seq with
  | ready =>
    rw [engineStep_ready hs] at h
    cases h
    exact .inl rfl
  | ingesting frames =>
    obtain ⟨evq, hq⟩ : ∃ evq, s.evq = evq := ⟨_, rfl⟩
    cases evq with
    | nil =>
      rw [engineStep_drained hs hq] at h
      cases h
      exact .inr (.inl ⟨frames, hs, rfl⟩)
    | cons r rest =>
      rw [engineStep_pop hs hq] at h
      exact .inr (.inr (.inl ⟨r, rest, hq, h⟩))
  | rendering k frames =>
    refine .inr (.inr (.inr ?_))
    cases hw : exec (.frame k) s with
    | next w =>
      rw [engineStep_frame hs hw] at h
      cases h
      exact ⟨k, frames, w, hs, hw, rfl⟩
    | fault f =>
      rw [engineStep_frame_fault hs hw] at h
      cases h
    | refused r => simp [engineStep, hs, hw] at h

end Sys2Proof.Machine
end

section
/-! SUPPORT. The invariant of a run (10 R28, R29, R26, 60 R171): each update keeps it, so every step does. -/

namespace Sys2Proof.Machine

/-! ### One note -/

theorem Note.Sound.mono {t t' : Nat} {n : Note} (h : n.Sound t) (ht : t ≤ t') : n.Sound t' := by
  obtain ⟨hflags, hpressed, hreleased, horder⟩ := h
  exact ⟨hflags, hpressed.trans ht, hreleased.trans ht, horder⟩

theorem Note.Sound.press {t : Nat} {n : Note} (h : n.Sound t) : (n.press t).Sound t := by
  unfold Note.press
  split_ifs
  · exact h
  · obtain ⟨-, -, hreleased, -⟩ := h
    exact ⟨fun _ => rfl, le_rfl, hreleased, nofun⟩

theorem Note.Sound.release {t : Nat} {n : Note} (h : n.Sound t) : (n.release t).Sound t := by
  obtain ⟨-, hpressed, -, -⟩ := h
  exact ⟨nofun, hpressed, le_rfl, fun _ _ => hpressed⟩

/-- A note that is not held may be taken out of the mix. -/
theorem Note.Sound.deactivate {t : Nat} {n : Note} (h : n.Sound t) (hn : n.pressed = false) : n.deactivate.Sound t := by
  obtain ⟨-, hpressed, hreleased, -⟩ := h
  exact ⟨fun hp => absurd (hn.symm.trans hp) nofun, hpressed, hreleased, nofun⟩

theorem pressed_of_tailInaudible {c : Cfg} {n : Note} {t : Nat} (h : tailInaudible c n t = true) :
    n.pressed = false := by
  simp only [tailInaudible, Bool.and_eq_true, Bool.not_eq_true'] at h
  exact h.1

/-- The scan takes only released notes out of the mix. -/
theorem Note.Sound.afterScan {t : Nat} {n : Note} (h : n.Sound t) (c : Cfg) (t' : Nat) :
    (noteAfterScan c t' n).Sound t := by
  unfold noteAfterScan
  split_ifs with hend
  · exact h.deactivate (pressed_of_tailInaudible hend.2)
  · exact h

/-! ### The amplitude of a frame -/

theorem mixVoice_wf (t : Nat) {acc : ExactNum × State} (h : acc.1.wf = true) (i : NoteIx) :
    (mixVoice t acc i).1.wf = true := by
  unfold mixVoice
  split_ifs
  · exact ExactNum.wf_add h _
  · exact h

theorem mixFold_wf (t : Nat) (l : List NoteIx) : ∀ {acc : ExactNum × State}, acc.1.wf = true →
    (l.foldl (mixVoice t) acc).1.wf = true := by
  induction l with
  | nil => exact id
  | cons i l ih => exact fun h => ih (mixVoice_wf t h i)

/-- The amplitude of a frame is in canonical form. -/
theorem mixed_wf (s : State) (t : Nat) : (s.mixed t).1.wf = true := mixFold_wf t scanOrder ExactNum.wf_zero

theorem writeFold_memory_wf (k : Nat) {v : ExactNum} (hv : v.wf = true) (l : List Nat) :
    ∀ {s : State}, Memory.wf s.out = true → Memory.wf (l.foldl (fun u ch => u.outWrite k v ch) s).out = true := by
  induction l with
  | nil => exact id
  | cons ch l ih => exact fun h => ih (memory_wf_outWrite h k hv ch)

theorem writeFrame_memory_wf {s : State} (h : Memory.wf s.out = true) (k : Nat) {v : ExactNum} (hv : v.wf = true) :
    Memory.wf (s.writeFrame k v).out = true :=
  writeFold_memory_wf k hv _ h

/-! ### The sequencer -/

theorem seqAfterDrain_sound (frames : Nat) : (seqAfterDrain frames).sound = true := by
  unfold seqAfterDrain
  split_ifs with h
  · rfl
  · exact decide_eq_true (Nat.pos_of_ne_zero h)

theorem seqAfterFrame_sound (k frames : Nat) : (seqAfterFrame k frames).sound = true := by
  unfold seqAfterFrame
  split_ifs with h
  · exact decide_eq_true h
  · rfl

/-! ### The updates of the state -/

theorem State.Inv.setNote {s : State} (h : s.Inv) (i : NoteIx) {n : Note} (hn : n.Sound s.tick) :
    (s.setNote i n).Inv where
  notes j := by
    rw [note_setNote]
    split_ifs
    · exact hn
    · exact h.notes j
  config := h.config
  idle := h.idle
  seq := h.seq
  report := h.report
  out := h.out
  script := h.script

/-- Raising `InvalidNoteIndex` for an index that names no note (60 R171). -/
theorem State.Inv.raise {s : State} (h : s.Inv) {i : Byte} (hi : 128 ≤ i.toNat) (t : Nat) :
    (s.raise .invalidNoteIndex i t).Inv where
  notes := h.notes
  config := h.config
  idle := h.idle
  seq := h.seq
  report := by
    rw [State.raise_report, List.all_append, h.report]
    simpa [ReportEntry.sound] using hi
  out := h.out
  script := h.script

theorem State.Inv.pressAt {s : State} (h : s.Inv) (i : Byte) : (s.pressAt i s.tick).Inv := by
  rcases pressAt_cases s i s.tick with ⟨hi, hu⟩ | ⟨ix, -, hu⟩
  · rw [hu]
    exact h.raise hi s.tick
  · rw [hu]
    exact h.setNote ix (h.notes ix).press

theorem State.Inv.releaseAt {s : State} (h : s.Inv) (i : Byte) : (s.releaseAt i s.tick).Inv := by
  rcases releaseAt_cases s i s.tick with ⟨hi, hu⟩ | ⟨ix, -, hu⟩
  · rw [hu]
    exact h.raise hi s.tick
  · rw [hu]
    exact h.setNote ix (h.notes ix).release

theorem State.Inv.applyEvent {s : State} (h : s.Inv) (e : Event) : (s.applyEvent s.tick e).Inv := by
  cases e with
  | noteOn n v => exact h.pressAt n
  | noteOff n v => exact h.releaseAt n
  | other st n v => exact h

/-- The invariant does not speak of the queue, the channel or the value handed over. -/
theorem State.Inv.setEnvironment {s : State} (h : s.Inv) (q : List Record) (c : Channel) (r : Ret) :
    ({ s with evq := q, chan := c, ret := r } : State).Inv :=
  { h with }

theorem State.Inv.drain (q : List Record) : ∀ {s : State}, s.Inv → (drain s.tick q s).Inv := by
  induction q with
  | nil => exact fun {s} h => h.setEnvironment [] s.chan s.ret
  | cons r q ih =>
    intro s h
    have hnext := (h.setEnvironment q s.chan s.ret).applyEvent (decodeEvent r)
    have htick : (State.applyEvent { s with evq := q } s.tick (decodeEvent r)).tick = s.tick := by rw [applyEvent_eq]
    have hrest := ih hnext
    rwa [htick] at hrest

theorem State.Inv.ingested {s : State} (h : s.Inv) : s.ingested.Inv := h.drain s.evq

/-- A sound Note table and a canonical OUT may be put in place while `tick` moves on. -/
theorem State.Inv.nextFrame {s : State} (h : s.Inv) {notes : Vector Note Config.notes} {out : Memory}
    (hnotes : ∀ i : NoteIx, notes[i.val].Sound s.tick) (hout : Memory.wf out = true) :
    ({ s with notes := notes, out := out, tick := s.tick + 1 } : State).Inv :=
  { h with
    notes := fun i => (hnotes i).mono (Nat.le_succ s.tick)
    out := hout }

theorem State.Inv.rendered {s u : State} {k : Nat} (h : s.Inv) (hu : s.rendered k = .next u) : u.Inv := by
  have hscan : ∀ i : NoteIx, ((s.mixed s.tick).2.note i).Sound s.tick := fun i => by
    rw [mixed_note]
    exact (h.notes i).afterScan s.cfg s.tick
  have hout : Memory.wf (s.mixed s.tick).2.out = true := by
    rw [mixed_state_eq]
    exact h.out
  rw [rendered_next hu]
  exact h.nextFrame hscan (writeFrame_memory_wf hout k (mixed_wf s s.tick))

theorem State.Inv.renderFrames {u : State} (count : Nat) : ∀ {k : Nat} {s : State}, s.Inv →
    renderFrames count k s = .next u → u.Inv := by
  induction count with
  | zero =>
    intro k s h hu
    cases hu
    exact h
  | succ count ih =>
    intro k s h hu
    obtain ⟨w, hw, hrest⟩ := renderFrames_succ_next hu
    exact ih (h.rendered hw) hrest

theorem State.Inv.clearOut {s : State} (h : s.Inv) : ({ s with out := [] } : State).Inv := { h with out := rfl }

theorem note_created (s : State) (c : Cfg) (i : NoteIx) : (s.created c).note i = Note.idle := by
  simp [State.note, State.created]

theorem Note.idle_sound (t : Nat) : Note.idle.Sound t := ⟨nofun, Nat.zero_le t, Nat.zero_le t, nofun⟩

theorem State.Inv.created {s : State} (h : s.Inv) {c : Cfg} (hc : c.legal = true) : (s.created c).Inv where
  notes i := by
    rw [note_created]
    exact Note.idle_sound _
  config _ := hc
  idle _ := rfl
  seq := rfl
  report := rfl
  out := rfl
  script := h.script

/-- A Ready engine may lose its stream. -/
theorem State.Inv.closed {s : State} (h : s.Inv) (hr : s.IsReady) :
    ({ s with stream := .absent, evq := [], chan := .connected } : State).Inv :=
  { h with
    config := nofun
    idle := fun _ => hr }

/-- With a stream, the sequencer may go to any sound state. -/
theorem State.Inv.setSeq {s : State} (h : s.Inv) {q : Seq} (hopened : s.stream ≠ .absent) (hq : q.sound = true) :
    ({ s with seq := q } : State).Inv :=
  { h with
    idle := fun habsent => absurd habsent hopened
    seq := hq }

theorem State.Inv.opened_of_not_ready {s : State} (h : s.Inv) (hr : s.seq ≠ .ready) : s.stream ≠ .absent :=
  fun habsent => hr (h.idle habsent)

/-! ### The steps -/

/-- The operations of the host and the producer keep the invariant. -/
theorem State.Inv.exec_atBoundary {s u : State} {i : Instr} (h : s.Inv) (hi : atBoundary i = true)
    (hu : exec i s = .next u) : u.Inv := by
  cases completed_of_exec hu with
  | openStream a hr habsent hlegal => exact h.created hlegal
  | pushAccepted r hroom => exact h.setEnvironment (s.evq ++ [r]) s.chan (.accepted true)
  | pushRefused r hfull => exact h.setEnvironment s.evq s.chan (.accepted false)
  | fill frames ho hr hrun => exact State.Inv.renderFrames frames h.ingested.clearOut hrun
  | closeStream hopened hr => exact h.closed hr
  | _ => cases hi

theorem State.Inv.acceptFill {s u : State} {frames : Nat} (h : s.Inv) (hu : s.acceptFill frames = .next u) : u.Inv := by
  obtain ⟨⟨hopened, -⟩, -, rfl⟩ := acceptFill_next hu
  exact h.clearOut.setSeq (fun habsent => nomatch hopened.symm.trans habsent) rfl

theorem State.Inv.exec_frame {s u : State} {k : Nat} (h : s.Inv) (hu : exec (.frame k) s = .next u) : u.Inv := by
  cases completed_of_exec hu with
  | frame _ _ hrun => exact h.rendered hrun

theorem exec_frame_stream {s u : State} {k : Nat} (hu : exec (.frame k) s = .next u) : u.stream = s.stream := by
  cases completed_of_exec hu with
  | frame _ _ hrun => rw [rendered_next hrun]

theorem State.Inv.engineStep {s u : State} (h : s.Inv) (hu : engineStep s = .next u) : u.Inv := by
  rcases engineStep_next_cases hu with rfl | ⟨frames, hs, rfl⟩ | ⟨r, rest, -, hexec⟩ | ⟨k, frames, w, hs, hframe, rfl⟩
  · exact h
  · exact h.setSeq (h.opened_of_not_ready (by simp [hs])) (seqAfterDrain_sound frames)
  · rw [exec_event_next hexec]
    exact (h.setEnvironment rest s.chan s.ret).applyEvent (decodeEvent r)
  · refine (h.exec_frame hframe).setSeq ?_ (seqAfterFrame_sound k frames)
    rw [exec_frame_stream hframe]
    exact h.opened_of_not_ready (by simp [hs])

/-- Every move of a run keeps the invariant. -/
theorem State.Inv.moveStep {s u : State} {m : Move} (h : s.Inv) (hm : m.inRun = true) (hu : moveStep m s = .next u) :
    u.Inv := by
  cases m with
  | perform i => exact h.exec_atBoundary hm hu
  | request frames => exact h.acceptFill hu
  | engine => exact h.engineStep hu
  | hangUp =>
    cases hu
    exact h.setEnvironment s.evq .closed s.ret

/-- Settles O59: the next move is one of a run, and each of these, like each micro-step, keeps the invariant. -/
theorem everyStepKeepsTheInvariant : Obligations.EveryStepKeepsTheInvariant := by
  intro s u h hu
  rcases step_cases s with ⟨-, hstep⟩ | ⟨m, rest, hscript, hstep⟩
  · exact h.engineStep (hstep ▸ hu)
  · have hmoves := h.script
    rw [hscript, List.all_cons, Bool.and_eq_true] at hmoves
    obtain ⟨hm, hrest⟩ := hmoves
    have hpopped : ({ s with script := rest } : State).Inv := { h with script := hrest }
    exact hpopped.moveStep hm (hstep ▸ hu)

theorem note_reset (i : NoteIx) : State.reset.note i = Note.idle := note_created State.reset resetCfg i

theorem resetCfg_legal : resetCfg.legal = true := by decide

/-- Settles O58: every note is Idle and the default configuration is legal. -/
theorem resetMeetsTheInvariant : Obligations.ResetMeetsTheInvariant where
  notes i := by
    rw [note_reset]
    exact Note.idle_sound _
  config _ := resetCfg_legal
  idle _ := rfl
  seq := rfl
  report := rfl
  out := reset_memory_wf
  script := rfl

end Sys2Proof.Machine
end

section
/-! SUPPORT. What each operation leaves unchanged (10 R21, R22, R24, R25, R30), and what OPEN leaves (10 R35). -/

namespace Sys2Proof.Machine

/-! ### The fields that the Note operations and INGEST leave as they were -/

@[simp] theorem State.pressAt_tick (s : State) (i : Byte) (t : Nat) : (s.pressAt i t).tick = s.tick := by rw [pressAt_eq]
@[simp] theorem State.pressAt_cfg (s : State) (i : Byte) (t : Nat) : (s.pressAt i t).cfg = s.cfg := by rw [pressAt_eq]
@[simp] theorem State.pressAt_impl (s : State) (i : Byte) (t : Nat) : (s.pressAt i t).impl = s.impl := by rw [pressAt_eq]
@[simp] theorem State.pressAt_out (s : State) (i : Byte) (t : Nat) : (s.pressAt i t).out = s.out := by rw [pressAt_eq]

@[simp] theorem State.releaseAt_tick (s : State) (i : Byte) (t : Nat) : (s.releaseAt i t).tick = s.tick := by rw [releaseAt_eq]
@[simp] theorem State.releaseAt_cfg (s : State) (i : Byte) (t : Nat) : (s.releaseAt i t).cfg = s.cfg := by rw [releaseAt_eq]
@[simp] theorem State.releaseAt_impl (s : State) (i : Byte) (t : Nat) : (s.releaseAt i t).impl = s.impl := by rw [releaseAt_eq]
@[simp] theorem State.releaseAt_out (s : State) (i : Byte) (t : Nat) : (s.releaseAt i t).out = s.out := by rw [releaseAt_eq]

@[simp] theorem State.deactivateAt_tick (s : State) (i : Byte) : (s.deactivateAt i).tick = s.tick := by rw [deactivateAt_eq]
@[simp] theorem State.deactivateAt_cfg (s : State) (i : Byte) : (s.deactivateAt i).cfg = s.cfg := by rw [deactivateAt_eq]
@[simp] theorem State.deactivateAt_impl (s : State) (i : Byte) : (s.deactivateAt i).impl = s.impl := by rw [deactivateAt_eq]
@[simp] theorem State.deactivateAt_out (s : State) (i : Byte) : (s.deactivateAt i).out = s.out := by rw [deactivateAt_eq]

@[simp] theorem State.envAt_state_tick (s : State) (i : NoteIx) (t : Nat) : (s.envAt i t).2.tick = s.tick := by rw [envAt_state_eq]
@[simp] theorem State.envAt_state_cfg (s : State) (i : NoteIx) (t : Nat) : (s.envAt i t).2.cfg = s.cfg := by rw [envAt_state_eq]
@[simp] theorem State.envAt_state_impl (s : State) (i : NoteIx) (t : Nat) : (s.envAt i t).2.impl = s.impl := by rw [envAt_state_eq]
@[simp] theorem State.envAt_state_out (s : State) (i : NoteIx) (t : Nat) : (s.envAt i t).2.out = s.out := by rw [envAt_state_eq]

@[simp] theorem State.ingested_tick (s : State) : s.ingested.tick = s.tick := by rw [ingested_eq]
@[simp] theorem State.ingested_cfg (s : State) : s.ingested.cfg = s.cfg := by rw [ingested_eq]
@[simp] theorem State.ingested_impl (s : State) : s.ingested.impl = s.impl := by rw [ingested_eq]
@[simp] theorem State.ingested_out (s : State) : s.ingested.out = s.out := by rw [ingested_eq]

/-! ### The named note (10 R21, 20 R51) -/

/-- From `s` to `u` only the note that the byte `i` names has changed, or only the report when it names none. -/
structure OnlyNoteWritten (i : Byte) (s u : State) : Prop where
  others : ∀ j : NoteIx, j.val ≠ i.toNat → u.note j = s.note j
  rest : u = { s with notes := u.notes, report := u.report }
  report : i.toNat < 128 → u.report = s.report
  notes : 128 ≤ i.toNat → u.notes = s.notes

theorem onlyNoteWritten_refl (i : Byte) (s : State) : OnlyNoteWritten i s s :=
  ⟨fun _ _ => rfl, rfl, fun _ => rfl, fun _ => rfl⟩

theorem onlyNoteWritten_raise {i : Byte} (hi : 128 ≤ i.toNat) (s : State) (c : Condition) (t : Nat) :
    OnlyNoteWritten i s (s.raise c i t) :=
  ⟨fun _ _ => rfl, rfl, fun hlt => absurd hi (Nat.not_le.2 hlt), fun _ => rfl⟩

theorem onlyNoteWritten_setNote {i : Byte} {ix : NoteIx} (hix : ix.val = i.toNat) (s : State) (n : Note) :
    OnlyNoteWritten i s (s.setNote ix n) where
  others j hj := note_setNote_ne s (fun h => hj (by rw [← h, hix])) n
  rest := rfl
  report _ := rfl
  notes hi := absurd (hix ▸ ix.isLt) (Nat.not_lt.2 hi)

theorem onlyNoteWritten_pressAt (s : State) (i : Byte) (t : Nat) : OnlyNoteWritten i s (s.pressAt i t) := by
  rcases pressAt_cases s i t with ⟨hi, hu⟩ | ⟨ix, hix, hu⟩ <;> rw [hu]
  · exact onlyNoteWritten_raise hi s _ t
  · exact onlyNoteWritten_setNote hix s _

theorem onlyNoteWritten_releaseAt (s : State) (i : Byte) (t : Nat) : OnlyNoteWritten i s (s.releaseAt i t) := by
  rcases releaseAt_cases s i t with ⟨hi, hu⟩ | ⟨ix, hix, hu⟩ <;> rw [hu]
  · exact onlyNoteWritten_raise hi s _ t
  · exact onlyNoteWritten_setNote hix s _

theorem onlyNoteWritten_deactivateAt (s : State) (i : Byte) : OnlyNoteWritten i s (s.deactivateAt i) := by
  rcases deactivateAt_cases s i with ⟨hi, hu⟩ | ⟨ix, hix, hu⟩ <;> rw [hu]
  · exact onlyNoteWritten_raise hi s _ s.tick
  · exact onlyNoteWritten_setNote hix s _

theorem exec_evOther_next {s u : State} {st n v : Byte} (h : exec (.evOther st n v) s = .next u) : u = s := by
  cases completed_of_exec h
  rfl

theorem outRead_of_out_eq {s u : State} (h : u.out = s.out) (a : Nat) : u.outRead a = s.outRead a := by
  rw [State.outRead, State.outRead, h]

/-- Settles O14: each of the six writes the named note or the report, and EV_OTHER neither. -/
theorem noteOperationsFrame : Obligations.NoteOperationsFrame := by
  intro s u i v st t h
  have hw : OnlyNoteWritten i s u := by
    rcases h with h | h | h | h | h | h <;> cases completed_of_exec h
    case press => exact onlyNoteWritten_pressAt s i t
    case release => exact onlyNoteWritten_releaseAt s i t
    case deactivate => exact onlyNoteWritten_deactivateAt s i
    case noteOn => exact onlyNoteWritten_pressAt s i s.tick
    case noteOff => exact onlyNoteWritten_releaseAt s i s.tick
    case evOther => exact onlyNoteWritten_refl i s
  exact ⟨hw.others, hw.rest, outRead_of_out_eq (by rw [hw.rest]), hw.report, hw.notes, exec_evOther_next⟩

/-! ### `tick` (10 R25) -/

/-- Settles O50: a frame adds one, so a FILL adds its number of frames, and OPEN starts at 0. -/
theorem tickMovesOnlyByFrames : Obligations.TickMovesOnlyByFrames := by
  intro i s u h
  cases completed_of_exec h with
  | frame k ho hrun => rw [rendered_next hrun]
  | fill frames ho hr hrun => rw [fill_eq hrun]
  | noteOn | noteOff | press | release | deactivate | env | ingest => simp
  | _ => rfl

/-! ### The configuration (10 R30, 70 R215) -/

/-- What a stream holds unchanged from OPEN to CLOSE: the configuration, TICK_W and QDEPTH. -/
def State.parameters (s : State) : Cfg × Impl := (s.cfg, s.impl)

/-- Only OPEN brings another configuration. -/
theorem parameters_of_completed {i : Instr} {s u : State} (h : Completed s i u) :
    u.parameters = s.parameters
      ∨ s.stream = .absent ∧ ∃ a : OpenArgs, i = .openStream a ∧ u.parameters = (a.cfg, s.impl) ∧ a.cfg.legal = true := by
  cases h with
  | openStream a hr habsent hlegal => exact .inr ⟨habsent, a, rfl, rfl, hlegal⟩
  | frame k ho hrun => rw [rendered_next hrun]; exact .inl rfl
  | fill frames ho hr hrun => rw [fill_eq hrun]; exact .inl rfl
  | noteOn | noteOff | press | release | deactivate | env | ingest => exact .inl (by simp [State.parameters])
  | _ => exact .inl rfl

theorem decodeRecord_ne_openStream (r : Record) (a : OpenArgs) : decodeRecord r ≠ .openStream a := by
  unfold decodeRecord
  cases decodeEvent r <;> nofun

theorem engineStep_parameters {s u : State} (h : engineStep s = .next u) : u.parameters = s.parameters := by
  rcases engineStep_next_cases h with rfl | ⟨frames, -, rfl⟩ | ⟨r, rest, -, hexec⟩ | ⟨k, frames, w, -, hframe, rfl⟩
  · rfl
  · rfl
  · rcases parameters_of_completed (completed_of_exec hexec) with hsame | ⟨-, a, hopen, -⟩
    · exact hsame
    · exact absurd hopen (decodeRecord_ne_openStream r a)
  · rcases parameters_of_completed (completed_of_exec hframe) with hsame | ⟨-, a, hopen, -⟩
    · exact hsame
    · exact nomatch hopen

/-- A step that is no OPEN keeps the parameters; an OPEN replaces the configuration where no stream is open. -/
theorem step_parameters {s u : State} (h : step s = .next u) :
    u.parameters = s.parameters
      ∨ s.stream = .absent ∧ ∃ (a : OpenArgs) (rest : List Move),
          s.script = .perform (.openStream a) :: rest ∧ u.parameters = (a.cfg, s.impl) ∧ a.cfg.legal = true := by
  rcases step_cases s with ⟨-, hstep⟩ | ⟨m, rest, hscript, hstep⟩ <;> rw [hstep] at h
  · exact .inl (engineStep_parameters h)
  · cases m with
    | perform i =>
      rcases parameters_of_completed (completed_of_exec h) with hsame | ⟨habsent, a, rfl, hopen⟩
      · exact .inl hsame
      · exact .inr ⟨habsent, a, rest, hscript, hopen⟩
    | request frames =>
      obtain ⟨-, -, rfl⟩ := acceptFill_next h
      exact .inl rfl
    | engine => exact .inl (engineStep_parameters (s := { s with script := rest }) h)
    | hangUp =>
      cases h
      exact .inl rfl

/-- Settles O51, by what a step does to the parameters. -/
theorem configurationIsConstant : Obligations.ConfigurationIsConstant := by
  intro s u h
  rcases step_parameters h with hsame | ⟨habsent, a, rest, hscript, hopen, hlegal⟩
  · exact ⟨congrArg Prod.snd hsame, .inl (congrArg Prod.fst hsame)⟩
  · exact ⟨congrArg Prod.snd hopen, .inr ⟨habsent, a, rest, hscript, congrArg Prod.fst hopen, hlegal⟩⟩

/-! ### The flag `pressed` and the timestamps (10 R22, R24) -/

/-- A note apart from its flag `active`. -/
def Note.SameKey (n m : Note) : Prop :=
  n.pressed = m.pressed ∧ n.tickPressed = m.tickPressed ∧ n.tickReleased = m.tickReleased

theorem Note.sameKey_refl (n : Note) : n.SameKey n := ⟨rfl, rfl, rfl⟩

theorem Note.sameKey_deactivate (n : Note) : n.deactivate.SameKey n := ⟨rfl, rfl, rfl⟩

theorem noteAfterScan_sameKey (c : Cfg) (t : Nat) (n : Note) : (noteAfterScan c t n).SameKey n := by
  unfold noteAfterScan
  split_ifs
  · exact n.sameKey_deactivate
  · exact n.sameKey_refl

theorem deactivateNote_sameKey (s : State) (i j : NoteIx) : ((s.deactivateNote i).note j).SameKey (s.note j) := by
  rw [State.deactivateNote, note_setNote]
  split_ifs with hij
  · subst hij
    exact (s.note i).sameKey_deactivate
  · exact (s.note j).sameKey_refl

theorem deactivateAt_sameKey (s : State) (i : Byte) (j : NoteIx) : ((s.deactivateAt i).note j).SameKey (s.note j) := by
  rcases deactivateAt_cases s i with ⟨-, hu⟩ | ⟨ix, -, hu⟩ <;> rw [hu]
  · exact (s.note j).sameKey_refl
  · exact deactivateNote_sameKey s ix j

theorem envAt_sameKey (s : State) (i j : NoteIx) (t : Nat) : ((s.envAt i t).2.note j).SameKey (s.note j) := by
  rcases envAt_state_cases s i t with hu | ⟨-, -, hu⟩ <;> rw [hu]
  · exact (s.note j).sameKey_refl
  · exact deactivateNote_sameKey s i j

theorem rendered_sameKey {s u : State} {k : Nat} (h : s.rendered k = .next u) (j : NoteIx) :
    (u.note j).SameKey (s.note j) := by
  have hnotes : u.notes = (s.mixed s.tick).2.notes := by rw [rendered_next h]
  rw [note_of_notes_eq hnotes, mixed_note]
  exact noteAfterScan_sameKey s.cfg s.tick (s.note j)

/-- Settles O53: DEACTIVATE, ENV and the scan of FRAME write only `active`; of the rest only a frame writes OUT. -/
theorem flagAndBufferWriters : Obligations.FlagAndBufferWriters := by
  intro i s u h
  cases completed_of_exec h with
  | noteOn | noteOff | press | release | ingest => exact ⟨trivial, outRead_of_out_eq (by simp)⟩
  | deactivate i ho => exact ⟨deactivateAt_sameKey s i, outRead_of_out_eq (by simp)⟩
  | env i t ho => exact ⟨fun j => envAt_sameKey s i j t, outRead_of_out_eq (by simp)⟩
  | frame k ho hrun => exact ⟨rendered_sameKey hrun, trivial⟩
  | fill frames ho hr hrun => exact ⟨trivial, trivial⟩
  | openStream a hr habsent hlegal => exact ⟨trivial, trivial⟩
  | _ => exact ⟨fun j => (s.note j).sameKey_refl, fun _ => rfl⟩

/-! ### Reset (10 R35) -/

/-- The defaults of OPEN at R = 44100 and C = 2 are the configuration of the reset state. -/
theorem openArgs_default_cfg : OpenArgs.cfg { rate := 44100, channels := 2 } = resetCfg := rfl

theorem resetCfg_values :
    resetCfg = ⟨.rat (4 / 5), .rat 5, .rat 0, .rat (1 / 5), .rat 440, .rat (1 / 10), .triangle, 44100, 2⟩ := by
  simp [resetCfg, Config.attack, Config.decay, Config.sustain, Config.release, Config.referenceFrequency,
    Config.masterVolume, Config.wave, Rat.mkRat_eq_div]

/-- Settles O46: the defaults are legal, so OPEN creates from them what the reset state is. -/
theorem resetValues : Obligations.ResetValues := by
  refine ⟨rfl, rfl, note_reset, resetCfg_values, rfl, rfl, rfl, ⟨rfl, resetCfg_legal⟩, fun s habsent hready => ?_⟩
  rw [exec_openStream_of_absent habsent hready, openArgs_default_cfg, if_pos resetCfg_legal]
  rfl

end Sys2Proof.Machine
end

section
/-! SUPPORT. PUSH (20 R56), its order against the drain (20 R65), and the writers of EVQ (20 R54). -/

namespace Sys2Proof.Machine

/-! ### PUSH -/

theorem exec_push (r : Record) (s : State) : exec (.push r) s = execPush r s := rfl

/-- The room of EVQ: a connected channel, and fewer records than QDEPTH when there is one. -/
theorem evqHasRoom_iff (s : State) :
    s.evqHasRoom = true ↔ s.chan = .connected ∧ ∀ d : Nat, s.impl.qdepth = some d → s.evq.length < d := by
  unfold State.evqHasRoom
  cases s.chan <;> cases s.impl.qdepth <;> simp

theorem exec_push_of_room {s : State} (hroom : s.evqHasRoom = true) (r : Record) :
    exec (.push r) s = .next { s with evq := s.evq ++ [r], ret := .accepted true } := by
  rw [exec_push, execPush, if_pos hroom]
  rfl

theorem exec_push_of_no_room {s : State} (hfull : ¬ s.evqHasRoom = true) (r : Record) :
    exec (.push r) s = .next { s with ret := .accepted false } := by
  rw [exec_push, execPush, if_neg hfull]

/-- Settles O47: PUSH answers by `evqHasRoom`, and `evqHasRoom_iff` says when a full queue or a closed channel has none. -/
theorem pushResult : Obligations.PushResult := by
  intro s r
  refine ⟨fun hchan hlen => ?_, fun d hd hlen => ?_, fun hchan => ?_⟩
  · exact exec_push_of_room ((evqHasRoom_iff s).2 ⟨hchan, hlen⟩) r
  · refine exec_push_of_no_room (fun hroom => ?_) r
    obtain ⟨-, hshort⟩ := (evqHasRoom_iff s).1 hroom
    exact absurd (hshort d hd) hlen.not_gt
  · refine exec_push_of_no_room (fun hroom => ?_) r
    obtain ⟨hconnected, -⟩ := (evqHasRoom_iff s).1 hroom
    exact nomatch hchan.symm.trans hconnected

/-! ### PUSH and the end of the drain -/

/-- A run of two steps whose first completes is its second step. -/
theorem run_two_of_next {M : Host.Core} {s w : M.State} (h : M.step s = .next w) : M.run 2 s = M.step w := by
  simp only [Host.Core.run, h]
  cases M.step w <;> rfl

/-- Settles O9: a record pushed first is what the engine's turn pops, one pushed after EVQ was found empty stays there. -/
theorem pushDuringDrainTakenNowOrNext : Obligations.PushDuringDrainTakenNowOrNext := by
  intro s r frames rest _ hroom hseq hevq
  refine ⟨fun hscript => ?_, fun hscript => ?_⟩
  · have hpush : step s
        = .next { s with evq := s.evq ++ [r], script := .engine :: rest, ret := .accepted true } := by
      rw [step_cons hscript]
      exact exec_push_of_room (s := { s with script := .engine :: rest }) hroom r
    have hqueued : s.evq ++ [r] = r :: s.evq := by rw [hevq, List.nil_append]
    exact (run_two_of_next (M := Sys2Proof.core) hpush).trans (engineStep_pop hseq hqueued)
  · have hturn : step s = .next { s with seq := seqAfterDrain frames, script := .perform (.push r) :: rest } := by
      rw [step_cons hscript]
      exact engineStep_drained hseq hevq
    have hpush := exec_push_of_room (s := { s with seq := seqAfterDrain frames, script := rest }) hroom r
    have hqueued : [r] = s.evq ++ [r] := by rw [hevq, List.nil_append]
    rw [hqueued]
    exact (run_two_of_next (M := Sys2Proof.core) hturn).trans hpush

/-! ### The writers of EVQ -/

@[simp] theorem State.pressAt_evq (s : State) (i : Byte) (t : Nat) : (s.pressAt i t).evq = s.evq := by rw [pressAt_eq]
@[simp] theorem State.releaseAt_evq (s : State) (i : Byte) (t : Nat) : (s.releaseAt i t).evq = s.evq := by rw [releaseAt_eq]
@[simp] theorem State.deactivateAt_evq (s : State) (i : Byte) : (s.deactivateAt i).evq = s.evq := by rw [deactivateAt_eq]
@[simp] theorem State.envAt_state_evq (s : State) (i : NoteIx) (t : Nat) : (s.envAt i t).2.evq = s.evq := by rw [envAt_state_eq]
@[simp] theorem State.ingested_evq (s : State) : s.ingested.evq = [] := by rw [ingested_eq]

/-- Settles O52, by the ways in which an operation completes. -/
theorem queueWriters : Obligations.QueueWriters := by
  intro i s u h
  cases completed_of_exec h with
  | pushAccepted r hroom => simp [hroom]
  | pushRefused r hfull => simp [hfull]
  | frame k ho hrun => rw [rendered_next hrun]
  | fill frames ho hr hrun => rw [fill_eq hrun]
  | noteOn | noteOff | press | release | deactivate | env | ingest => simp
  | _ => rfl

end Sys2Proof.Machine
end

section
/-! SUPPORT. Fields that an event, the drain or a frame does not read: OUT (20 R57), EVQ and its channel (20 R55, 60 R172). -/

namespace Sys2Proof.Machine

/-! ### What passes unseen through the Note operations -/

/-- The update `f` touches nothing that PRESS, RELEASE and ENV read or write: it keeps the Note table and the configuration, and
can be made before or after a write of a note or a report entry. -/
structure Unseen (f : State → State) : Prop where
  note : ∀ (s : State) (i : NoteIx), (f s).note i = s.note i
  cfg : ∀ s : State, (f s).cfg = s.cfg
  setNote : ∀ (s : State) (i : NoteIx) (n : Note), (f s).setNote i n = f (s.setNote i n)
  raise : ∀ (s : State) (c : Condition) (i : Byte) (t : Nat), (f s).raise c i t = f (s.raise c i t)

section

variable {f : State → State} (hf : Unseen f)
include hf

theorem Unseen.pressAt_comm (s : State) (i : Byte) (t : Nat) : (f s).pressAt i t = f (s.pressAt i t) := by
  unfold State.pressAt
  cases noteIndex? i with
  | none => exact hf.raise s _ i t
  | some ix => exact (hf.setNote s ix _).trans (by rw [hf.note])

theorem Unseen.releaseAt_comm (s : State) (i : Byte) (t : Nat) : (f s).releaseAt i t = f (s.releaseAt i t) := by
  unfold State.releaseAt
  cases noteIndex? i with
  | none => exact hf.raise s _ i t
  | some ix => exact (hf.setNote s ix _).trans (by rw [hf.note])

theorem Unseen.applyEvent_comm (s : State) (t : Nat) (e : Event) : (f s).applyEvent t e = f (s.applyEvent t e) := by
  cases e with
  | noteOn n v => exact hf.pressAt_comm s n t
  | noteOff n v => exact hf.releaseAt_comm s n t
  | other st n v => rfl

theorem Unseen.deactivateNote_comm (s : State) (i : NoteIx) : (f s).deactivateNote i = f (s.deactivateNote i) := by
  rw [State.deactivateNote, hf.note]
  exact hf.setNote s i _

theorem Unseen.envAt_comm (s : State) (i : NoteIx) (t : Nat) : (f s).envAt i t = Prod.map id f (s.envAt i t) := by
  unfold State.envAt
  rw [hf.note, hf.cfg, hf.deactivateNote_comm]
  split_ifs <;> rfl

theorem Unseen.mixVoice_comm (t : Nat) (acc : ExactNum × State) (i : NoteIx) :
    mixVoice t (Prod.map id f acc) i = Prod.map id f (mixVoice t acc i) := by
  unfold mixVoice
  rw [Prod.map_snd, hf.note, hf.cfg, hf.envAt_comm]
  split_ifs <;> rfl

theorem Unseen.mixFold_comm (t : Nat) (l : List NoteIx) (acc : ExactNum × State) :
    l.foldl (mixVoice t) (Prod.map id f acc) = Prod.map id f (l.foldl (mixVoice t) acc) :=
  List.foldl_hom (Prod.map id f) (hf.mixVoice_comm t)

theorem Unseen.mixed_comm (s : State) (t : Nat) : (f s).mixed t = Prod.map id f (s.mixed t) := by
  unfold State.mixed
  exact hf.mixFold_comm t scanOrder (ExactNum.zero, s)

end

/-! ### OUT before a FILL -/

/-- `s` with other contents of OUT. -/
def State.setOut (s : State) (o : Memory) : State := { s with out := o }

theorem unseen_setOut (o : Memory) : Unseen fun s => s.setOut o :=
  ⟨fun _ _ => rfl, fun _ => rfl, fun _ _ _ => rfl, fun _ _ _ _ => rfl⟩

theorem drain_setOut (t : Nat) (o : Memory) (q : List Record) :
    ∀ s : State, drain t q (s.setOut o) = (drain t q s).setOut o := by
  induction q with
  | nil => exact fun s => rfl
  | cons r q ih =>
    intro s
    have hevent := (unseen_setOut o).applyEvent_comm { s with evq := q } t (decodeEvent r)
    rw [drain, drain, ← ih, ← hevent]
    rfl

theorem ingested_setOut (s : State) (o : Memory) : (s.setOut o).ingested = s.ingested.setOut o :=
  drain_setOut s.tick o s.evq s

/-- Settles O42: the drain carries OUT along unread, and FILL empties it before its first frame. -/
theorem oldBufferHasNoEffect : Obligations.OldBufferHasNoEffect := by
  intro s frames old
  have hstart : ({ (s.setOut old).ingested with out := [] } : State) = { s.ingested with out := [] } := by
    rw [ingested_setOut]
    rfl
  show execFill frames (s.setOut old) = execFill frames s
  rw [execFill, hstart]
  rfl

/-! ### EVQ and its channel under a micro-step -/

/-- `s` with other records in EVQ and another channel state. -/
def State.setQueue (s : State) (q : List Record) (c : Channel) : State := { s with evq := q, chan := c }

theorem unseen_setQueue (q : List Record) (c : Channel) : Unseen fun s => s.setQueue q c :=
  ⟨fun _ _ => rfl, fun _ => rfl, fun _ _ _ => rfl, fun _ _ _ _ => rfl⟩

theorem writeFrame_setQueue (s : State) (q : List Record) (c : Channel) (k : Nat) (v : ExactNum) :
    (s.setQueue q c).writeFrame k v = (s.writeFrame k v).setQueue q c :=
  List.foldl_hom (fun u : State => u.setQueue q c) (g₁ := fun u ch => u.outWrite k v ch) (fun _ _ => rfl)

theorem advanceTick_setQueue {s u : State} (h : s.advanceTick = .next u) (q : List Record) (c : Channel) :
    (s.setQueue q c).advanceTick = .next (u.setQueue q c) := by
  rcases advanceTick_cases s with ⟨hfits, hn⟩ | ⟨-, hf⟩
  · cases hn.symm.trans h
    exact if_pos hfits
  · exact nomatch hf.symm.trans h

/-- A frame neither reads nor writes EVQ and its channel. -/
theorem rendered_setQueue {s u : State} {k : Nat} (h : s.rendered k = .next u) (q : List Record) (c : Channel) :
    (s.setQueue q c).rendered k = .next (u.setQueue q c) := by
  have hmix : (s.setQueue q c).mixed s.tick = Prod.map id (fun w => w.setQueue q c) (s.mixed s.tick) :=
    (unseen_setQueue q c).mixed_comm s s.tick
  show (((s.setQueue q c).mixed s.tick).2.writeFrame k ((s.setQueue q c).mixed s.tick).1).advanceTick = _
  rw [hmix, Prod.map_snd, Prod.map_fst, writeFrame_setQueue]
  exact advanceTick_setQueue h q c

theorem exec_frame_setQueue {s u : State} {k : Nat} (h : exec (.frame k) s = .next u) (q : List Record) (c : Channel) :
    exec (.frame k) (s.setQueue q c) = .next (u.setQueue q c) := by
  cases completed_of_exec h with
  | frame _ ho hrun => exact onEngine_next_iff.2 ⟨ho, rendered_setQueue hrun q c⟩

/-- The operation of a record applies its event at the present `tick`. -/
theorem exec_event (e : Event) (s : State) : exec e.toInstr s = s.onEngine (.next (s.applyEvent s.tick e)) := by
  cases e <;> rfl

theorem exec_event_setQueue {s u : State} {e : Event} (h : exec e.toInstr s = .next u) (q : List Record) (c : Channel) :
    exec e.toInstr (s.setQueue q c) = .next (u.setQueue q c) := by
  rw [exec_event, onEngine_next_iff] at h ⊢
  obtain ⟨ho, hu⟩ := h
  cases hu
  exact ⟨ho, congrArg _ ((unseen_setQueue q c).applyEvent_comm s s.tick e)⟩

/-- A micro-step that completes while rendering is a FRAME that completes. -/
theorem engineStep_frame_next {s u : State} {k frames : Nat} (hs : s.seq = .rendering k frames)
    (h : engineStep s = .next u) :
    ∃ w, exec (.frame k) s = .next w ∧ u = { w with seq := seqAfterFrame k frames } := by
  cases hw : exec (.frame k) s with
  | next w =>
    rw [engineStep_frame hs hw] at h
    cases h
    exact ⟨w, rfl, rfl⟩
  | fault f => exact nomatch (engineStep_frame_fault hs hw).symm.trans h
  | refused r => simp [engineStep, hs, hw] at h

/-- Settles O55: `EvqTryPop` looks at the records only, and neither an event nor a frame reads or writes the channel. -/
theorem closedChannelLooksEmpty : Obligations.ClosedChannelLooksEmpty := by
  intro s u c h
  show engineStep (s.setQueue s.evq c) = .next (u.setQueue u.evq c)
  cases hs : s.seq with
  | ready =>
    cases (engineStep_ready hs).symm.trans h
    exact engineStep_ready hs
  | ingesting frames =>
    obtain ⟨q, hq⟩ : ∃ q, s.evq = q := ⟨_, rfl⟩
    cases q with
    | nil =>
      cases (engineStep_drained hs hq).symm.trans h
      exact engineStep_drained (s := s.setQueue s.evq c) hs hq
    | cons r rest =>
      rw [engineStep_pop hs hq] at h
      have hrest : u.evq = rest := by rw [exec_event_next h, applyEvent_eq]
      rw [engineStep_pop (s := s.setQueue s.evq c) hs hq, hrest]
      exact exec_event_setQueue h rest c
  | rendering k frames =>
    obtain ⟨w, hw, rfl⟩ := engineStep_frame_next hs h
    have hkept : w.evq = s.evq := queueWriters _ s w hw
    rw [← hkept]
    exact engineStep_frame (s := s.setQueue w.evq c) hs (exec_frame_setQueue hw w.evq c)

end Sys2Proof.Machine
end

section
/-! SUPPORT. The encodings (30_encoding.md): the rows of format EV3, the words of the opcode table, and the unread velocity. -/

namespace Sys2Proof

/-! ### The rows of format EV3 -/

/-- Settles O2: the two comparisons of the decoder, in its order, with the status bytes written out. -/
theorem statusByteDecides : Obligations.StatusByteDecides := by
  intro status n v
  unfold decodeRecord decodeEvent Config.stNoteOn Config.stNoteOff
  split_ifs <;> rfl

theorem decodeRecord_noteOn (n v : Byte) : decodeRecord ⟨Config.stNoteOn, n, v⟩ = .noteOn n v :=
  statusByteDecides Config.stNoteOn n v

theorem decodeRecord_noteOff (n v : Byte) : decodeRecord ⟨Config.stNoteOff, n, v⟩ = .noteOff n v :=
  statusByteDecides Config.stNoteOff n v

theorem decodeRecord_evOther {status : Byte} (hon : status ≠ Config.stNoteOn) (hoff : status ≠ Config.stNoteOff)
    (n v : Byte) : decodeRecord ⟨status, n, v⟩ = .evOther status n v :=
  (statusByteDecides status n v).trans ((if_neg hon).trans (if_neg hoff))

theorem wf_evOther_iff (status n v : Byte) :
    (Instr.evOther status n v).wf = true ↔ status ≠ Config.stNoteOn ∧ status ≠ Config.stNoteOff := by
  simp [Instr.wf]

theorem decodeRecord_of_encode {i : Instr} {r : Record} (hwf : i.wf = true) (h : encode i = some r) :
    decodeRecord r = i := by
  cases i with
  | noteOn n v =>
    cases h
    exact decodeRecord_noteOn n v
  | noteOff n v =>
    cases h
    exact decodeRecord_noteOff n v
  | evOther status n v =>
    cases h
    obtain ⟨hon, hoff⟩ := (wf_evOther_iff status n v).1 hwf
    exact decodeRecord_evOther hon hoff n v
  | _ => exact nomatch h

/-- Every record is a row of format EV3: the decoder gives a well-formed operation, whose record it is. -/
theorem encode_decodeRecord (r : Record) : (decodeRecord r).wf = true ∧ encode (decodeRecord r) = some r := by
  obtain ⟨status, n, v⟩ := r
  by_cases hon : status = Config.stNoteOn
  · subst hon
    rw [decodeRecord_noteOn]
    exact ⟨rfl, rfl⟩
  by_cases hoff : status = Config.stNoteOff
  · subst hoff
    rw [decodeRecord_noteOff]
    exact ⟨rfl, rfl⟩
  · rw [decodeRecord_evOther hon hoff]
    exact ⟨(wf_evOther_iff status n v).2 ⟨hon, hoff⟩, rfl⟩

theorem decode_bytes_append (r : Record) (rest : List Byte) : decode (r.bytes ++ rest) = .ok (decodeRecord r, rest) := rfl

/-- Settles O1: the three rows of R86 to R88 one by one in each direction; an EV_OTHER comes back only because a well-formed
one has neither recognised status byte. -/
theorem eventRecordRoundTrip : Obligations.EventRecordRoundTrip :=
  ⟨fun _ _ => decodeRecord_of_encode, encode_decodeRecord, decode_bytes_append⟩

/-! ### Words -/

/-- A 24-bit word of the table is the word of a record (00 R9). -/
theorem decodeTableWord_record (w : Nat) : decodeTableWord 24 w = some (decodeRecord (Record.ofWord w)) := rfl

/-- An 8-bit word of the table is the field WAVE; its phase is 0 (log 21). -/
theorem decodeTableWord_wave (w : Nat) :
    decodeTableWord 8 w = some ((Wave.ofCode (BitVec.ofNat 2 w)).instr (.turns (.rat 0) 0)) := rfl

/-- Settles O3: the fields of the eleven words, read out. The zero phase of the WAVE rows is the model's choice (log 21). -/
theorem specWordsDecode : Obligations.SpecWordsDecode := by
  unfold Obligations.SpecWordsDecode
  simp only [decodeTableWord_record, decodeTableWord_wave]
  decide

theorem ofCode_code (w : Wave) : Wave.ofCode w.code = w := by cases w <;> rfl

theorem code_ofCode : ∀ c : BitVec 2, (Wave.ofCode c).code = c := by decide

/-- A byte is read back from its place in a word: what stands above it is a multiple of 256. -/
theorem ofNat_byte_of_eq {n k : Nat} {b : Byte} (h : n = 256 * k + b.toNat) : BitVec.ofNat 8 n = b := by
  apply BitVec.eq_of_toNat_eq
  rw [BitVec.toNat_ofNat, h, Nat.mul_add_mod]
  exact Nat.mod_eq_of_lt b.isLt

theorem ofWord_toWord (r : Record) : Record.ofWord r.toWord = r := by
  obtain ⟨status, n, v⟩ := r
  have hn := n.isLt
  have hv := v.isLt
  have hstatus : BitVec.ofNat 8 (Record.toWord ⟨status, n, v⟩ / 65536) = status :=
    ofNat_byte_of_eq (k := 0) (by simp only [Record.toWord]; omega)
  have hindex : BitVec.ofNat 8 (Record.toWord ⟨status, n, v⟩ / 256) = n :=
    ofNat_byte_of_eq (k := status.toNat) (by simp only [Record.toWord]; omega)
  have hvelocity : BitVec.ofNat 8 (Record.toWord ⟨status, n, v⟩) = v :=
    ofNat_byte_of_eq (k := status.toNat * 256 + n.toNat) (by simp only [Record.toWord]; omega)
  rw [Record.ofWord, hstatus, hindex, hvelocity]

/-- Settles O4: the four codes are listed, and the bytes of a word are its digits to the base 256. -/
theorem waveFieldAndWordRoundTrip : Obligations.WaveFieldAndWordRoundTrip :=
  ⟨ofCode_code, code_ofCode, ofWord_toWord⟩

end Sys2Proof

namespace Sys2Proof.Machine

/-! ### The velocity in a drain -/

/-- `r` with another velocity. -/
def setVelocity (velocity : Record → Byte) (r : Record) : Record := { r with velocity := velocity r }

/-- `s` with other records in EVQ, its channel as it is. -/
def State.setEvq (s : State) (q : List Record) : State := { s with evq := q }

theorem unseen_setEvq (q : List Record) : Unseen fun s => s.setEvq q :=
  ⟨fun _ _ => rfl, fun _ => rfl, fun _ _ _ => rfl, fun _ _ _ _ => rfl⟩

/-- Whether and how a record writes the Note table is decided by its other two bytes (30 R83). -/
theorem applyEvent_setVelocity (s : State) (t : Nat) (velocity : Record → Byte) (r : Record) :
    s.applyEvent t (decodeEvent (setVelocity velocity r)) = s.applyEvent t (decodeEvent r) := by
  unfold setVelocity decodeEvent
  split_ifs <;> rfl

/-- The drain takes its records from its list; what the state holds in EVQ is overwritten unread. -/
theorem drain_setEvq (t : Nat) (q q' : List Record) (s : State) : drain t q (s.setEvq q') = drain t q s := by
  cases q <;> rfl

theorem drain_map_setVelocity (t : Nat) (velocity : Record → Byte) (q : List Record) :
    ∀ s : State, drain t (q.map (setVelocity velocity)) s = drain t q s := by
  induction q with
  | nil => exact fun _ => rfl
  | cons r q ih =>
    intro s
    calc drain t ((r :: q).map (setVelocity velocity)) s
        = drain t q ((s.setEvq (q.map (setVelocity velocity))).applyEvent t (decodeEvent (setVelocity velocity r))) := ih _
      _ = drain t q ((s.applyEvent t (decodeEvent r)).setEvq (q.map (setVelocity velocity))) := by
        rw [applyEvent_setVelocity, (unseen_setEvq _).applyEvent_comm]
      _ = drain t q ((s.applyEvent t (decodeEvent r)).setEvq q) := by rw [drain_setEvq, drain_setEvq]
      _ = drain t (r :: q) s := by
        rw [← (unseen_setEvq q).applyEvent_comm]
        rfl

/-- Settles O18: record by record the drain makes the same writes, and the guard of INGEST does not look at EVQ. -/
theorem velocityIsNeverRead : Obligations.VelocityIsNeverRead := by
  intro s velocity
  have hdrain : (s.setEvq (s.evq.map (setVelocity velocity))).ingested = s.ingested :=
    (drain_map_setVelocity s.tick velocity s.evq _).trans (drain_setEvq s.tick s.evq _ s)
  exact congrArg (fun u => s.onEngine (.next u)) hdrain

end Sys2Proof.Machine
end

section
/-! SUPPORT. The note state machine (40_note_state.md): what PRESS, RELEASE, DEACTIVATE and ENV write, and the transitions of a note. -/

namespace Sys2Proof.Machine

/-! ### The operations on an opened engine -/

theorem exec_press_of_opened {s : State} (ho : s.Opened) (i : Byte) (t : Nat) :
    exec (.press i t) s = .next (s.pressAt i t) :=
  onEngine_of_opened ho _

theorem exec_release_of_opened {s : State} (ho : s.Opened) (i : Byte) (t : Nat) :
    exec (.release i t) s = .next (s.releaseAt i t) :=
  onEngine_of_opened ho _

theorem exec_deactivate_of_opened {s : State} (ho : s.Opened) (i : Byte) :
    exec (.deactivate i) s = .next (s.deactivateAt i) :=
  onEngine_of_opened ho _

theorem exec_env_of_opened {s : State} (ho : s.Opened) (i : NoteIx) (t : Nat) :
    exec (.env i t) s = .next ((s.envAt i t).2.giveValue (ExactNum.ofScalar (s.envAt i t).1)) :=
  onEngine_of_opened ho _

/-! ### The entry a byte names (20 R51) -/

theorem noteIndex?_eq_none {i : Byte} (hi : 128 ≤ i.toNat) : noteIndex? i = none :=
  dif_neg (Nat.not_lt.2 hi)

theorem noteIndex?_eq_some {i : Byte} {ix : NoteIx} (hix : ix.val = i.toNat) : noteIndex? i = some ix := by
  have hi : i.toNat < Config.notes := hix ▸ ix.isLt
  rw [noteIndex?, dif_pos hi]
  exact congrArg some (Fin.ext hix.symm)

theorem pressAt_of_outside {i : Byte} (hi : 128 ≤ i.toNat) (s : State) (t : Nat) :
    s.pressAt i t = s.raise .invalidNoteIndex i t := by
  rw [State.pressAt, noteIndex?_eq_none hi]

theorem pressAt_of_index {i : Byte} {ix : NoteIx} (hix : ix.val = i.toNat) (s : State) (t : Nat) :
    s.pressAt i t = s.setNote ix ((s.note ix).press t) := by
  rw [State.pressAt, noteIndex?_eq_some hix]

theorem releaseAt_of_outside {i : Byte} (hi : 128 ≤ i.toNat) (s : State) (t : Nat) :
    s.releaseAt i t = s.raise .invalidNoteIndex i t := by
  rw [State.releaseAt, noteIndex?_eq_none hi]

theorem releaseAt_of_index {i : Byte} {ix : NoteIx} (hix : ix.val = i.toNat) (s : State) (t : Nat) :
    s.releaseAt i t = s.setNote ix ((s.note ix).release t) := by
  rw [State.releaseAt, noteIndex?_eq_some hix]

theorem deactivateAt_of_outside {i : Byte} (hi : 128 ≤ i.toNat) (s : State) :
    s.deactivateAt i = s.raise .invalidNoteIndex i s.tick := by
  rw [State.deactivateAt, noteIndex?_eq_none hi]

theorem deactivateAt_of_index {i : Byte} {ix : NoteIx} (hix : ix.val = i.toNat) (s : State) :
    s.deactivateAt i = s.deactivateNote ix := by
  rw [State.deactivateAt, noteIndex?_eq_some hix]

/-! ### The whole effect of PRESS, RELEASE and DEACTIVATE (40 R101, R102, R103) -/

theorem Note.press_of_pressed {n : Note} (hn : n.pressed = true) (t : Nat) : n.press t = n := if_pos hn

theorem Note.press_of_not_pressed {n : Note} (hn : n.pressed = false) (t : Nat) :
    n.press t = ⟨true, true, t, n.tickReleased⟩ :=
  if_neg (Bool.eq_false_iff.1 hn)

/-- Settles O10: the byte is out of range, or names a note, which is held already or takes the press. -/
theorem pressResult : Obligations.PressResult := by
  intro s i t ho
  refine ⟨s.pressAt i t, exec_press_of_opened ho i t, fun hi => pressAt_of_outside hi s t, fun ix hix => ?_⟩
  rw [pressAt_of_index hix]
  constructor
  · intro hheld
    rw [Note.press_of_pressed hheld, setNote_self]
  · intro hfree
    rw [Note.press_of_not_pressed hfree]
    rfl

/-- Settles O11: `Note.release` does not look at the flags, so one clause covers every state of the note. -/
theorem releaseResult : Obligations.ReleaseResult := by
  intro s i t ho
  exact ⟨s.releaseAt i t, exec_release_of_opened ho i t, fun hi => releaseAt_of_outside hi s t,
    fun ix hix => releaseAt_of_index hix s t⟩

/-- Settles O12: the byte is out of range, or names the one note that is written. -/
theorem deactivateResult : Obligations.DeactivateResult := by
  intro s i ho
  exact ⟨s.deactivateAt i, exec_deactivate_of_opened ho i, fun hi => deactivateAt_of_outside hi s,
    fun ix hix => deactivateAt_of_index hix s⟩

/-! ### The states of a note (40 R100) -/

theorem Note.state_eq_idle_iff (n : Note) : n.state = .idle ↔ n.pressed = false ∧ n.active = false := by
  unfold Note.state
  cases n.pressed <;> cases n.active <;> decide

theorem Note.state_eq_pressed_iff (n : Note) : n.state = .pressed ↔ n.pressed = true ∧ n.active = true := by
  unfold Note.state
  cases n.pressed <;> cases n.active <;> decide

theorem Note.state_eq_releasedActive_iff (n : Note) :
    n.state = .releasedActive ↔ n.pressed = false ∧ n.active = true := by
  unfold Note.state
  cases n.pressed <;> cases n.active <;> decide

/-! ### The transitions of a note (40 R104) -/

/-- Idle and ReleasedActive are the states in which the key is up. -/
theorem Note.press_of_idle_or_releasedActive {n : Note} (hn : n.state = .idle ∨ n.state = .releasedActive) (t : Nat) :
    n.press t = ⟨true, true, t, n.tickReleased⟩ := by
  rw [Note.state_eq_idle_iff, Note.state_eq_releasedActive_iff] at hn
  exact Note.press_of_not_pressed (hn.elim And.left And.left) t

theorem Note.press_of_state_pressed {n : Note} (hn : n.state = .pressed) (t : Nat) : n.press t = n :=
  Note.press_of_pressed (n.state_eq_pressed_iff.1 hn).1 t

theorem Note.state_release_of_idle {n : Note} (hn : n.state = .idle) (t : Nat) : (n.release t).state = .idle :=
  (n.release t).state_eq_idle_iff.2 ⟨rfl, (n.state_eq_idle_iff.1 hn).2⟩

/-- Pressed and ReleasedActive are states of a sounding note, and RELEASE does not silence it. -/
theorem Note.state_release_of_pressed_or_releasedActive {n : Note}
    (hn : n.state = .pressed ∨ n.state = .releasedActive) (t : Nat) : (n.release t).state = .releasedActive := by
  rw [Note.state_eq_pressed_iff, Note.state_eq_releasedActive_iff] at hn
  exact (n.release t).state_eq_releasedActive_iff.2 ⟨rfl, hn.elim And.right And.right⟩

theorem Note.state_deactivate_of_releasedActive {n : Note} (hn : n.state = .releasedActive) :
    n.deactivate.state = .idle :=
  n.deactivate.state_eq_idle_iff.2 ⟨(n.state_eq_releasedActive_iff.1 hn).1, rfl⟩

/-- ENV deactivates a released note exactly when its release value, a real, is at or below the floor (41 R112). -/
theorem tailInaudible_iff (c : Cfg) (n : Note) (t : Nat) :
    tailInaudible c n t = true ↔ n.pressed = false ∧ (releaseValue c n t).toReal ≤ Config.floor := by
  rw [tailInaudible, Bool.and_eq_true, Bool.not_eq_true', Scalar.le_iff, Scalar.toReal_rat]

/-- ENV leaves its own note as the scan of a frame leaves it. -/
theorem note_envAt_same (s : State) (i : NoteIx) (t : Nat) :
    (s.envAt i t).2.note i = noteAfterScan s.cfg t (s.note i) := by
  unfold State.envAt noteAfterScan
  cases ha : (s.note i).active
  · rfl
  · cases tailInaudible s.cfg (s.note i) t
    · rfl
    · exact note_setNote_same s i _

theorem noteAfterScan_of_idle_or_pressed {n : Note} (hn : n.state = .idle ∨ n.state = .pressed) (c : Cfg) (t : Nat) :
    noteAfterScan c t n = n := by
  rw [Note.state_eq_idle_iff, Note.state_eq_pressed_iff] at hn
  refine if_neg fun ⟨hactive, hsilent⟩ => ?_
  have hreleased : n.pressed = false := pressed_of_tailInaudible hsilent
  rcases hn with ⟨-, hinactive⟩ | ⟨hpressed, -⟩
  · exact absurd (hinactive.symm.trans hactive) nofun
  · exact absurd (hreleased.symm.trans hpressed) nofun

theorem noteAfterScan_of_le_floor {c : Cfg} {n : Note} {t : Nat} (hn : n.state = .releasedActive)
    (hfloor : (releaseValue c n t).toReal ≤ Config.floor) : noteAfterScan c t n = n.deactivate := by
  obtain ⟨hreleased, hactive⟩ := n.state_eq_releasedActive_iff.1 hn
  exact if_pos ⟨hactive, (tailInaudible_iff c n t).2 ⟨hreleased, hfloor⟩⟩

theorem noteAfterScan_of_floor_lt {c : Cfg} {n : Note} {t : Nat} (hfloor : Config.floor < (releaseValue c n t).toReal) :
    noteAfterScan c t n = n :=
  if_neg fun ⟨_, hsilent⟩ => hfloor.not_ge ((tailInaudible_iff c n t).1 hsilent).2

/-- Settles O13: each operation completes with its update of the named note, and the update makes the transitions. -/
theorem noteTransitionRelation : Obligations.NoteTransitionRelation := by
  intro s i ix t ho hix
  refine ⟨⟨_, exec_press_of_opened ho i t, ?_⟩, ⟨_, exec_release_of_opened ho i t, ?_⟩, ⟨_, exec_env_of_opened ho ix t, ?_⟩⟩
  · rw [pressAt_of_index hix, note_setNote_same]
    refine ⟨fun hup => ?_, fun hdown => Note.press_of_state_pressed hdown t⟩
    rw [Note.press_of_idle_or_releasedActive hup]
    exact ⟨rfl, rfl, rfl⟩
  · rw [releaseAt_of_index hix, note_setNote_same]
    exact ⟨rfl, rfl, fun hidle => Note.state_release_of_idle hidle t,
      fun hsounding => Note.state_release_of_pressed_or_releasedActive hsounding t⟩
  · rw [note_of_notes_eq (State.giveValue_notes _ _), note_envAt_same]
    refine ⟨fun hn => noteAfterScan_of_idle_or_pressed hn s.cfg t,
      fun hn => ⟨fun hfloor => ?_, noteAfterScan_of_floor_lt⟩⟩
    rw [noteAfterScan_of_le_floor hn hfloor]
    exact ⟨Note.state_deactivate_of_releasedActive hn, rfl, rfl⟩

end Sys2Proof.Machine
end

section
/-! SUPPORT. The envelope (41_envelope.md): the ADS curve and the release ramp over the reals, and what ENV hands over and writes. -/

namespace Sys2Proof.Machine

/-! ### The reals of the envelope -/

theorem cast_floor : (Config.floor : ℝ) = 1 / 10000 := by
  norm_num [Config.floor, Rat.mkRat_eq_div]

theorem cast_floor_nonneg : (0 : ℝ) ≤ Config.floor := by
  norm_num [cast_floor]

theorem cast_secondsSince (c : Cfg) (t since : Nat) : (secondsSince c t since : ℝ) = secondsReal c t since := by
  simp [secondsSince, secondsReal]

/-- `adsAt` computes the curve of 41 R111. -/
theorem toReal_adsAt (c : Cfg) (l : Scalar) : (adsAt c l).toReal = adsReal c l.toReal := by
  unfold adsAt adsReal
  simp only [Scalar.le_iff, Scalar.toReal_plus]
  split_ifs <;> simp

theorem toReal_adsAt_secondsSince (c : Cfg) (t since : Nat) :
    (adsAt c (.rat (secondsSince c t since))).toReal = adsReal c (secondsReal c t since) := by
  rw [toReal_adsAt, Scalar.toReal_rat, cast_secondsSince]

/-- The factor of 41 R112 that takes a released note to 0 within `release` seconds. -/
noncomputable def releaseRamp (c : Cfg) (n : Note) (t : Nat) : ℝ :=
  1 - secondsReal c t n.tickReleased / c.release.toReal

theorem toReal_releaseValue (c : Cfg) (n : Note) (t : Nat) :
    (releaseValue c n t).toReal = releaseRamp c n t * adsReal c (secondsReal c t n.tickPressed) := by
  simp [releaseValue, releaseRamp, toReal_adsAt, cast_secondsSince]

/-! ### Lifetimes -/

theorem secondsReal_nonneg (c : Cfg) {t since : Nat} (h : since ≤ t) : 0 ≤ secondsReal c t since :=
  div_nonneg (sub_nonneg.2 (Nat.cast_le.2 h)) c.rate.cast_nonneg

theorem secondsReal_mono (c : Cfg) {t t' : Nat} (h : t ≤ t') (since : Nat) :
    secondsReal c t since ≤ secondsReal c t' since := by
  unfold secondsReal
  gcongr

/-- A span of seconds has passed when its frames have. -/
theorem le_secondsReal {c : Cfg} (hc : c.legal = true) {x : ℝ} {t since : Nat} (h : since + x * c.rate ≤ (t : ℝ)) :
    x ≤ secondsReal c t since := by
  obtain ⟨-, -, -, -, -, -, hrate, -⟩ := (legal_iff c).1 hc
  rw [secondsReal, le_div_iff₀ (Nat.cast_pos.2 hrate)]
  linarith

/-! ### The ADS curve (41 R111) -/

theorem adsReal_of_le_attack {c : Cfg} {l : ℝ} (hl : l ≤ c.attack.toReal) : adsReal c l = l / c.attack.toReal :=
  if_pos hl

theorem adsReal_attack {c : Cfg} (hc : c.legal = true) : adsReal c c.attack.toReal = 1 := by
  obtain ⟨hattack, -⟩ := (legal_iff c).1 hc
  rw [adsReal_of_le_attack le_rfl, div_self hattack.ne']

/-- The formula of the decay holds at `attack` too, where the curve has reached 1. -/
theorem adsReal_of_decaying {c : Cfg} (hc : c.legal = true) {l : ℝ} (hl : c.attack.toReal ≤ l)
    (hl' : l ≤ c.attack.toReal + c.decay.toReal) :
    adsReal c l = 1 - (l - c.attack.toReal) / c.decay.toReal * (1 - c.sustain.toReal) := by
  rcases hl.eq_or_lt with rfl | hlt
  · rw [adsReal_attack hc]
    simp
  · rw [adsReal, if_neg hlt.not_ge, if_pos hl']

theorem adsReal_of_decayed {c : Cfg} (hc : c.legal = true) {l : ℝ} (hl : c.attack.toReal + c.decay.toReal < l) :
    adsReal c l = c.sustain.toReal := by
  obtain ⟨-, hdecay, -⟩ := (legal_iff c).1 hc
  rw [adsReal, if_neg (by linarith), if_neg hl.not_ge]

/-- After the attack the curve does not fall below `sustain`. -/
theorem sustain_le_adsReal {c : Cfg} (hc : c.legal = true) {l : ℝ} (hl : c.attack.toReal ≤ l) :
    c.sustain.toReal ≤ adsReal c l := by
  obtain ⟨-, hdecay, -, -, hsustain, -⟩ := (legal_iff c).1 hc
  rcases le_or_gt l (c.attack.toReal + c.decay.toReal) with hdecaying | hdecayed
  · have hpart : (l - c.attack.toReal) / c.decay.toReal ≤ 1 := div_le_one_of_le₀ (by linarith) hdecay
    have hfall := mul_le_of_le_one_left (sub_nonneg.2 hsustain) hpart
    rw [adsReal_of_decaying hc hl hdecaying]
    linarith
  · rw [adsReal_of_decayed hc hdecayed]

/-- From `attack` on the curve never rises. -/
theorem adsReal_antitoneOn {c : Cfg} (hc : c.legal = true) : AntitoneOn (adsReal c) (Set.Ici c.attack.toReal) := by
  intro l hl l' hl' hle
  obtain ⟨-, hdecay, -, -, hsustain, -⟩ := (legal_iff c).1 hc
  rcases le_or_gt l' (c.attack.toReal + c.decay.toReal) with hdecaying | hdecayed
  · rw [adsReal_of_decaying hc hl (hle.trans hdecaying), adsReal_of_decaying hc hl' hdecaying]
    have := sub_nonneg.2 hsustain
    gcongr
  · rw [adsReal_of_decayed hc hdecayed]
    exact sustain_le_adsReal hc hl

theorem adsReal_le_one_of_attack_le {c : Cfg} (hc : c.legal = true) {l : ℝ} (hl : c.attack.toReal ≤ l) :
    adsReal c l ≤ 1 :=
  adsReal_attack hc ▸ adsReal_antitoneOn hc Set.self_mem_Ici hl hl

/-- 41 R111 (e): the attack climbs from 0 to 1, and what follows stays between `sustain` and 1. -/
theorem adsReal_mem_unitInterval {c : Cfg} (hc : c.legal = true) {l : ℝ} (hl : 0 ≤ l) :
    0 ≤ adsReal c l ∧ adsReal c l ≤ 1 := by
  obtain ⟨hattack, -, -, hsustain, -⟩ := (legal_iff c).1 hc
  rcases le_total l c.attack.toReal with hclimbing | hclimbed
  · rw [adsReal_of_le_attack hclimbing]
    exact ⟨div_nonneg hl hattack.le, div_le_one_of_le₀ hclimbing hattack.le⟩
  · exact ⟨hsustain.trans (sustain_le_adsReal hc hclimbed), adsReal_le_one_of_attack_le hc hclimbed⟩

theorem exec_ads_of_opened {s : State} (ho : s.Opened) (l : Scalar) :
    exec (.ads l) s = .next (s.giveValue (ExactNum.ofScalar (adsAt s.cfg l))) :=
  onEngine_of_opened ho _

/-- Settles O28: ADS completes on an opened engine, and its value stands for the curve's. -/
theorem adsResult : Obligations.AdsResult := by
  intro s l ho
  refine ⟨ExactNum.ofScalar (adsAt s.cfg l), exec_ads_of_opened ho l, ?_⟩
  rw [ExactNum.toReal_ofScalar, toReal_adsAt]
  rfl

/-- Settles O29: the values at the joins are those of the branch that ends or begins there. -/
theorem adsCurveShape : Obligations.AdsCurveShape := by
  intro c hc
  obtain ⟨hattack, hdecay, -⟩ := (legal_iff c).1 hc
  simp only [toReal_adsAt]
  refine ⟨fun l hl => ?_, fun l hl => ?_, fun hdecay l hl => ?_, fun l hl => ?_, fun hfull l hl => ?_,
    fun l hl => adsReal_mem_unitInterval hc hl⟩
  · rw [hl, adsReal_of_le_attack hattack.le, zero_div]
  · rw [hl, adsReal_attack hc]
  · rw [hl, adsReal_of_decaying hc (by linarith) le_rfl, add_sub_cancel_left, div_self hdecay.ne', one_mul,
      sub_sub_cancel]
  · rw [adsAt, if_neg (by rw [Scalar.le_iff]; linarith), if_neg (by rw [Scalar.le_iff, Scalar.toReal_plus]; linarith)]
  · exact le_antisymm (adsReal_le_one_of_attack_le hc hl) (hfull ▸ sustain_le_adsReal hc hl)

/-! ### The release ramp (41 R112, R114) -/

theorem releaseRamp_le_one {c : Cfg} (hc : c.legal = true) {n : Note} {t : Nat} (ht : n.tickReleased ≤ t) :
    releaseRamp c n t ≤ 1 := by
  obtain ⟨-, -, hrelease, -⟩ := (legal_iff c).1 hc
  exact sub_le_self 1 (div_nonneg (secondsReal_nonneg c ht) hrelease.le)

theorem releaseRamp_antitone {c : Cfg} (hc : c.legal = true) (n : Note) : Antitone (releaseRamp c n) := by
  intro t t' hle
  obtain ⟨-, -, hrelease, -⟩ := (legal_iff c).1 hc
  have := secondsReal_mono c hle n.tickReleased
  unfold releaseRamp
  gcongr

/-- The ramp has come down to 0 when `release` seconds have passed. -/
theorem releaseRamp_nonpos {c : Cfg} (hc : c.legal = true) {n : Note} {t : Nat}
    (ht : c.release.toReal ≤ secondsReal c t n.tickReleased) : releaseRamp c n t ≤ 0 := by
  obtain ⟨-, -, hrelease, -⟩ := (legal_iff c).1 hc
  exact sub_nonpos.2 ((one_le_div₀ hrelease).2 ht)

theorem releaseValue_le_one {c : Cfg} (hc : c.legal = true) {n : Note} {t : Nat} (hp : n.tickPressed ≤ t)
    (hr : n.tickReleased ≤ t) : (releaseValue c n t).toReal ≤ 1 := by
  obtain ⟨hnonneg, hle⟩ := adsReal_mem_unitInterval hc (secondsReal_nonneg c hp)
  rw [toReal_releaseValue]
  exact (mul_le_of_le_one_left hnonneg (releaseRamp_le_one hc hr)).trans hle

theorem releaseValue_nonpos {c : Cfg} (hc : c.legal = true) {n : Note} {t : Nat} (hp : n.tickPressed ≤ t)
    (hr : c.release.toReal ≤ secondsReal c t n.tickReleased) : (releaseValue c n t).toReal ≤ 0 := by
  rw [toReal_releaseValue]
  exact mul_nonpos_of_nonpos_of_nonneg (releaseRamp_nonpos hc hr)
    (adsReal_mem_unitInterval hc (secondsReal_nonneg c hp)).1

/-- Where both factors fall and the later value is positive, the product falls. -/
theorem releaseValue_le_of_late {c : Cfg} (hc : c.legal = true) {n : Note} {t t' : Nat} (hle : t ≤ t')
    (hp : c.attack.toReal ≤ secondsReal c t n.tickPressed) (hpos : 0 < (releaseValue c n t').toReal) :
    (releaseValue c n t').toReal ≤ (releaseValue c n t).toReal := by
  obtain ⟨hattack, -⟩ := (legal_iff c).1 hc
  have hlife := secondsReal_mono c hle n.tickPressed
  have hnonneg := (adsReal_mem_unitInterval hc (hattack.le.trans (hp.trans hlife))).1
  have hfalls := adsReal_antitoneOn hc hp (hp.trans hlife) hlife
  have hramp := releaseRamp_antitone hc n hle
  rw [toReal_releaseValue] at hpos ⊢
  rw [toReal_releaseValue]
  exact mul_le_mul hramp hfalls hnonneg ((pos_of_mul_pos_left hpos hnonneg).le.trans hramp)

/-! ### What ENV hands over (41 R112) -/

theorem envValue_of_held {n : Note} (hn : n.pressed = true) (c : Cfg) (t : Nat) :
    envValue c n t = adsAt c (.rat (secondsSince c t n.tickPressed)) :=
  if_pos hn

theorem envValue_of_le_floor {c : Cfg} {n : Note} {t : Nat} (hn : n.pressed = false)
    (hfloor : (releaseValue c n t).toReal ≤ Config.floor) : envValue c n t = .rat 0 := by
  rw [envValue, if_neg (Bool.eq_false_iff.1 hn), if_pos ((Scalar.le_iff _ _).2 hfloor)]

theorem envValue_of_floor_lt {c : Cfg} {n : Note} {t : Nat} (hn : n.pressed = false)
    (hfloor : Config.floor < (releaseValue c n t).toReal) : envValue c n t = releaseValue c n t := by
  rw [envValue, if_neg (Bool.eq_false_iff.1 hn), if_neg fun h => hfloor.not_ge ((Scalar.le_iff _ _).1 h)]

theorem envValue_nonneg_of_released {n : Note} (hn : n.pressed = false) (c : Cfg) (t : Nat) :
    0 ≤ (envValue c n t).toReal := by
  rcases le_or_gt (releaseValue c n t).toReal Config.floor with hfloor | hfloor
  · rw [envValue_of_le_floor hn hfloor, Scalar.toReal_rat, Rat.cast_zero]
  · rw [envValue_of_floor_lt hn hfloor]
    exact cast_floor_nonneg.trans hfloor.le

/-- 41 R113: a held note has the value of the curve, and a released one a value above the floor, or 0. -/
theorem envValue_mem_unitInterval {c : Cfg} (hc : c.legal = true) {n : Note} {t : Nat} (hp : n.tickPressed ≤ t)
    (hr : n.tickReleased ≤ t) : 0 ≤ (envValue c n t).toReal ∧ (envValue c n t).toReal ≤ 1 := by
  cases hn : n.pressed with
  | true =>
    rw [envValue_of_held hn, toReal_adsAt_secondsSince]
    exact adsReal_mem_unitInterval hc (secondsReal_nonneg c hp)
  | false =>
    refine ⟨envValue_nonneg_of_released hn c t, ?_⟩
    rcases le_or_gt (releaseValue c n t).toReal Config.floor with hfloor | hfloor
    · simp [envValue_of_le_floor hn hfloor]
    · rw [envValue_of_floor_lt hn hfloor]
      exact releaseValue_le_one hc hp hr

/-- Settles O32: at `t'` the tail is silent, or above the floor, and then it was no lower at `t`. -/
theorem lateReleaseTailNeverRises : Obligations.LateReleaseTailNeverRises := by
  intro c n t t' hc hn horder ht hle hlate
  have hlife : c.attack.toReal ≤ secondsReal c t n.tickPressed := by
    have hcast : (n.tickReleased : ℝ) ≤ t := Nat.cast_le.2 ht
    rw [Nat.cast_sub horder] at hlate
    exact le_secondsReal hc (by linarith)
  rcases le_or_gt (releaseValue c n t').toReal Config.floor with hfloor | hfloor
  · rw [envValue_of_le_floor hn hfloor, Scalar.toReal_rat, Rat.cast_zero]
    exact envValue_nonneg_of_released hn c t
  · have hfalls := releaseValue_le_of_late hc hle hlife (cast_floor_nonneg.trans_lt hfloor)
    rw [envValue_of_floor_lt hn hfloor, envValue_of_floor_lt hn (hfloor.trans_le hfalls)]
    exact hfalls

/-! ### ENV on the Synth State (41 R112) -/

theorem envAt_of_inactive {s : State} {i : NoteIx} (ha : (s.note i).active = false) (t : Nat) :
    s.envAt i t = (.rat 0, s) :=
  if_neg (Bool.eq_false_iff.1 ha)

theorem envAt_of_active {s : State} {i : NoteIx} (ha : (s.note i).active = true) (t : Nat) :
    s.envAt i t = (envValue s.cfg (s.note i) t,
      if tailInaudible s.cfg (s.note i) t then s.deactivateNote i else s) :=
  if_pos ha

theorem envAt_of_held {s : State} {i : NoteIx} (ha : (s.note i).active = true) (hn : (s.note i).pressed = true)
    (t : Nat) : s.envAt i t = (adsAt s.cfg (.rat (secondsSince s.cfg t (s.note i).tickPressed)), s) := by
  rw [envAt_of_active ha, envValue_of_held hn,
    if_neg fun h => Bool.eq_false_iff.1 (pressed_of_tailInaudible h) hn]

theorem envAt_of_le_floor {s : State} {i : NoteIx} {t : Nat} (ha : (s.note i).active = true)
    (hn : (s.note i).pressed = false) (hfloor : (releaseValue s.cfg (s.note i) t).toReal ≤ Config.floor) :
    s.envAt i t = (.rat 0, s.deactivateNote i) := by
  rw [envAt_of_active ha, envValue_of_le_floor hn hfloor, if_pos ((tailInaudible_iff _ _ t).2 ⟨hn, hfloor⟩)]

theorem envAt_of_floor_lt {s : State} {i : NoteIx} {t : Nat} (ha : (s.note i).active = true)
    (hn : (s.note i).pressed = false) (hfloor : Config.floor < (releaseValue s.cfg (s.note i) t).toReal) :
    s.envAt i t = (releaseValue s.cfg (s.note i) t, s) := by
  rw [envAt_of_active ha, envValue_of_floor_lt hn hfloor,
    if_neg fun h => hfloor.not_ge ((tailInaudible_iff _ _ t).1 h).2]

theorem envAt_value_mem_unitInterval {s : State} (hc : s.cfg.legal = true) {i : NoteIx} {t : Nat}
    (hp : (s.note i).tickPressed ≤ t) (hr : (s.note i).tickReleased ≤ t) :
    0 ≤ (s.envAt i t).1.toReal ∧ (s.envAt i t).1.toReal ≤ 1 := by
  cases ha : (s.note i).active with
  | false => simp [envAt_of_inactive ha]
  | true =>
    rw [envAt_of_active ha]
    exact envValue_mem_unitInterval hc hp hr

/-- Settles O31: what ENV hands over is 0 for an inactive note, else the envelope's value. -/
theorem envelopeStaysInUnitInterval : Obligations.EnvelopeStaysInUnitInterval := by
  intro s u i t v hp hr h hv
  cases completed_of_exec h with
  | env i t ho =>
    cases hv
    rw [ExactNum.toReal_ofScalar]
    exact envAt_value_mem_unitInterval ho.2 hp hr

theorem Note.deactivate_of_released {n : Note} (hn : n.pressed = false) :
    n.deactivate = ⟨false, false, n.tickPressed, n.tickReleased⟩ := by
  rw [Note.deactivate, hn]

/-- Settles O30: the note is inactive, held, or released with its value at, below or above the floor. -/
theorem envResult : Obligations.EnvResult := by
  intro s i t ho
  rw [exec_env_of_opened ho]
  refine ⟨ExactNum.ofScalar (s.envAt i t).1, fun ha => ?_, fun ha hn => ?_, fun ha hn rv hrv => ?_⟩ <;>
    rw [ExactNum.toReal_ofScalar]
  · rw [envAt_of_inactive ha]
    exact ⟨rfl, Rat.cast_zero⟩
  · rw [envAt_of_held ha hn]
    exact ⟨rfl, toReal_adsAt_secondsSince _ _ _⟩
  · have hvalue : rv = (releaseValue s.cfg (s.note i) t).toReal := hrv.trans (toReal_releaseValue _ _ _).symm
    rw [hvalue, ← cast_floor]
    constructor <;> intro hfloor
    · rw [envAt_of_le_floor ha hn hfloor, ← Note.deactivate_of_released hn]
      exact ⟨Rat.cast_zero, rfl⟩
    · rw [envAt_of_floor_lt ha hn hfloor]
      exact ⟨rfl, rfl⟩

/-! ### The notes after ENV and after a frame -/

theorem note_envAt_ne (s : State) {i j : NoteIx} (hij : i ≠ j) (t : Nat) : (s.envAt i t).2.note j = s.note j := by
  rcases envAt_state_cases s i t with hu | ⟨-, -, hu⟩ <;> rw [hu]
  exact note_setNote_ne s hij _

theorem Note.SameKey.eq_with_active {n m : Note} (h : n.SameKey m) : n = { m with active := n.active } := by
  obtain ⟨hpressed, htickPressed, htickReleased⟩ := h
  rw [← hpressed, ← htickPressed, ← htickReleased]

/-- Settles O36: ENV writes at most `active` of its own note, and hands over a value. -/
theorem envFrame : Obligations.EnvFrame := by
  intro s u i t h
  cases completed_of_exec h with
  | env i t ho =>
    have hstate := congrArg (State.giveValue · (ExactNum.ofScalar (s.envAt i t).1)) (envAt_state_eq s i t)
    exact ⟨hstate, fun j hj => note_envAt_ne s hj.symm t, (envAt_sameKey s i i t).eq_with_active,
      outRead_of_out_eq (by simp)⟩

theorem noteAfterScan_of_held {n : Note} (hn : n.pressed = true) (c : Cfg) (t : Nat) : noteAfterScan c t n = n :=
  if_neg fun ⟨_, hsilent⟩ => Bool.eq_false_iff.1 (pressed_of_tailInaudible hsilent) hn

theorem noteAfterScan_inactive_of_le_floor {c : Cfg} {n : Note} {t : Nat} (hn : n.pressed = false)
    (hfloor : (releaseValue c n t).toReal ≤ Config.floor) : (noteAfterScan c t n).active = false := by
  unfold noteAfterScan
  split_ifs with hend
  · rfl
  · exact Bool.eq_false_iff.2 fun ha => hend ⟨ha, (tailInaudible_iff c n t).2 ⟨hn, hfloor⟩⟩

/-- A frame leaves each note as its scan does. -/
theorem note_rendered {s u : State} {k : Nat} (h : s.rendered k = .next u) (j : NoteIx) :
    u.note j = noteAfterScan s.cfg s.tick (s.note j) := by
  have hnotes : u.notes = (s.mixed s.tick).2.notes := by rw [rendered_next h]
  rw [note_of_notes_eq hnotes, mixed_note]

/-- Settles O34: ENV of another note does not write the note, and ENV and a frame leave a held one. -/
theorem heldNoteStaysInTheMix : Obligations.HeldNoteStaysInTheMix := by
  intro s u i j t k hn h
  rcases h with h | h <;> cases completed_of_exec h
  case env ho =>
    rw [note_of_notes_eq (State.giveValue_notes _ _)]
    rcases eq_or_ne j i with rfl | hji
    · rw [note_envAt_same, noteAfterScan_of_held hn]
    · exact note_envAt_ne s hji t
  case frame ho hrun => rw [note_rendered hrun, noteAfterScan_of_held hn]

theorem rendered_completes {s : State} (hroom : s.HasRoomFor 1) (k : Nat) : ∃ u, s.rendered k = .next u := by
  rcases rendered_cases s k with ⟨-, hnext⟩ | ⟨hfull, -⟩
  · exact ⟨_, hnext⟩
  · exact absurd hroom (Bool.eq_false_iff.1 hfull)

/-- Settles O33: the frame runs, and in it the ramp, and with it the tail, is at most 0. -/
theorem releaseTailEnds : Obligations.ReleaseTailEnds := by
  intro s i k ho hroom hp hn hend
  obtain ⟨u, hu⟩ := rendered_completes hroom k
  refine ⟨u, (onEngine_of_opened ho _).trans hu, ?_⟩
  rw [note_rendered hu]
  have hsilent := releaseValue_nonpos ho.2 hp (le_secondsReal ho.2 hend)
  exact noteAfterScan_inactive_of_le_floor hn (hsilent.trans cast_floor_nonneg)

end Sys2Proof.Machine
end

section
/-! SUPPORT. The oscillator bank (42_oscillators.md): the four functions over a phase in turns, what SINE, TRIANGLE, SQUARE, SAWTOOTH and OSC hand over, and the frame of the operations that only compute a value. -/

namespace Sys2Proof.Machine

/-! ### The position within the period (42 R122) -/

/-- The floor of a multiple of `v` counts the whole periods of `v`, and then the parts of the last one. -/
theorem floor_natCast_mul (k : ℕ) (v : ℝ) : ⌊k * v⌋ = k * ⌊v⌋ + ⌊k * Int.fract v⌋ := by
  have hsplit : k * v = k * Int.fract v + ((k * ⌊v⌋ : ℤ) : ℝ) := by
    push_cast
    rw [← mul_add, Int.fract_add_floor]
  rw [hsplit, Int.floor_add_intCast, add_comm]

/-- Which of `k` equal parts of the period a phase of `v` turns is in. -/
theorem floor_natCast_mul_emod {k : ℕ} (hk : 0 < k) (v : ℝ) : ⌊k * v⌋ % k = ⌊k * Int.fract v⌋ := by
  have hk' : (0 : ℝ) < k := Nat.cast_pos.2 hk
  have hnonneg : 0 ≤ ⌊k * Int.fract v⌋ := Int.floor_nonneg.2 (mul_nonneg hk'.le (Int.fract_nonneg v))
  have hlt : ⌊k * Int.fract v⌋ < k := by
    rw [Int.floor_lt]
    exact_mod_cast mul_lt_of_lt_one_right hk' (Int.fract_lt_one v)
  rw [floor_natCast_mul, Int.mul_add_emod_self_left, Int.emod_eq_of_lt hnonneg hlt]

theorem toReal_periodPosition (q : Scalar) (m : Fin Config.semitones) :
    (periodPosition q m).toReal = Int.fract (q.toReal * rootReal m.val) := by
  rw [← Int.self_sub_floor, ← Scalar.floorTimes_eq]
  simp [periodPosition, sub_eq_add_neg]

/-- The quarter of the period that `triangleAt` looks at. -/
theorem floorTimes_four_emod (q : Scalar) (m : Fin Config.semitones) :
    ((Scalar.rat 4).times q).floorTimes m % 4 = ⌊4 * Int.fract (q.toReal * rootReal m.val)⌋ := by
  have hquarter := floor_natCast_mul_emod (k := 4) (by decide) (q.toReal * rootReal m.val)
  simpa [Scalar.floorTimes_eq, mul_assoc] using hquarter

/-- Twice `v` has an even floor or is whole exactly where `v` is in the first half of its period, the end included. -/
theorem floor_two_mul_even_or_eq_iff (v : ℝ) :
    ⌊2 * v⌋ % 2 = 0 ∨ (⌊2 * v⌋ : ℝ) = 2 * v ↔ Int.fract v ≤ 1 / 2 := by
  have hhalf : ⌊2 * v⌋ % 2 = ⌊2 * Int.fract v⌋ := floor_natCast_mul_emod (k := 2) (by decide) v
  have hfloor : ⌊2 * v⌋ = 2 * ⌊v⌋ + ⌊2 * Int.fract v⌋ := floor_natCast_mul 2 v
  have hsplit := Int.floor_add_fract v
  rw [hhalf]
  constructor
  · rintro (hfirst | hwhole)
    · have hlt := (Int.floor_eq_zero_iff.1 hfirst).2
      linarith
    · have hend : (⌊2 * Int.fract v⌋ : ℝ) = 2 * Int.fract v := by
        rw [hfloor] at hwhole
        push_cast at hwhole
        linarith
      have hle : ⌊2 * Int.fract v⌋ ≤ 1 := Int.lt_add_one_iff.1 (Int.floor_lt.2 (by
        push_cast
        linarith [Int.fract_lt_one v]))
      have hle' : (⌊2 * Int.fract v⌋ : ℝ) ≤ 1 := by exact_mod_cast hle
      linarith
  · intro hle
    rcases hle.lt_or_eq with hlt | heq
    · exact .inl (Int.floor_eq_zero_iff.2 ⟨by linarith [Int.fract_nonneg v], by linarith⟩)
    · have hone : ⌊2 * Int.fract v⌋ = 1 := by
        rw [heq]
        norm_num
      right
      rw [hfloor, hone]
      push_cast
      linarith

/-- The test of `squareAt` says that the phase is in the first half of the period (42 R123 (b)). -/
theorem firstHalf_iff (q : Scalar) (m : Fin Config.semitones) :
    ((Scalar.rat 2).times q).floorTimes m % 2 = 0 ∨ ((Scalar.rat 2).times q).timesIsInt m = true
      ↔ Int.fract (q.toReal * rootReal m.val) ≤ 1 / 2 := by
  rw [Scalar.timesIsInt_iff, Scalar.floorTimes_eq, ← floor_two_mul_even_or_eq_iff]
  simp [mul_assoc]

/-! ### The functions over a phase in turns -/

theorem turns_of_radians (x : ℝ) : 2 * Real.pi * (x / (2 * Real.pi)) = x :=
  mul_div_cancel₀ x Real.two_pi_pos.ne'

theorem radians_div_two_pi (v : ℝ) : 2 * Real.pi * v / (2 * Real.pi) = v :=
  mul_div_cancel_left₀ v Real.two_pi_pos.ne'

theorem sin_turns_fract (v : ℝ) : Real.sin (2 * Real.pi * Int.fract v) = Real.sin (2 * Real.pi * v) := by
  rw [← Int.self_sub_floor, mul_sub, mul_comm _ (⌊v⌋ : ℝ), Real.sin_sub_int_mul_two_pi]

/-- `asin(sin(x))` is `x` between `-π/2` and `π/2`, that is between `-1/4` and `1/4` turns. -/
theorem triangleFn_turns_of_near_zero {v : ℝ} (hlow : -(1 / 4) ≤ v) (hhigh : v ≤ 1 / 4) :
    triangleFn (2 * Real.pi * v) = 4 * v := by
  have hpi := Real.pi_pos
  rw [triangleFn, Real.arcsin_sin (by nlinarith) (by nlinarith)]
  field_simp
  ring

theorem triangleFn_half_turn_sub (v : ℝ) : triangleFn (2 * Real.pi * (1 / 2 - v)) = triangleFn (2 * Real.pi * v) := by
  have hreflect : 2 * Real.pi * (1 / 2 - v) = Real.pi - 2 * Real.pi * v := by ring
  rw [triangleFn, triangleFn, hreflect, Real.sin_pi_sub]

theorem triangleFn_sub_one_turn (v : ℝ) : triangleFn (2 * Real.pi * (v - 1)) = triangleFn (2 * Real.pi * v) := by
  rw [triangleFn, triangleFn, mul_sub_one, Real.sin_sub_two_pi]

theorem triangleFn_turns_fract (v : ℝ) : triangleFn (2 * Real.pi * Int.fract v) = triangleFn (2 * Real.pi * v) := by
  rw [triangleFn, triangleFn, sin_turns_fract]

/-! The three linear pieces of TRIANGLE over one period (42 R122). They agree where they meet. -/

theorem triangleFn_turns_of_first_quarter {v : ℝ} (hv : Int.fract v ≤ 1 / 4) :
    triangleFn (2 * Real.pi * v) = 4 * Int.fract v := by
  rw [← triangleFn_turns_fract]
  exact triangleFn_turns_of_near_zero (by linarith [Int.fract_nonneg v]) hv

theorem triangleFn_turns_of_middle_quarters {v : ℝ} (hlow : 1 / 4 ≤ Int.fract v) (hhigh : Int.fract v ≤ 3 / 4) :
    triangleFn (2 * Real.pi * v) = 2 - 4 * Int.fract v := by
  rw [← triangleFn_turns_fract, ← triangleFn_half_turn_sub,
    triangleFn_turns_of_near_zero (by linarith) (by linarith)]
  ring

theorem triangleFn_turns_of_last_quarter {v : ℝ} (hv : 3 / 4 ≤ Int.fract v) :
    triangleFn (2 * Real.pi * v) = 4 * Int.fract v - 4 := by
  rw [← triangleFn_turns_fract, ← triangleFn_sub_one_turn,
    triangleFn_turns_of_near_zero (by linarith) (by linarith [Int.fract_lt_one v])]
  ring

theorem triangleFn_turns (v : ℝ) :
    triangleFn (2 * Real.pi * v) =
      if Int.fract v ≤ 1 / 4 then 4 * Int.fract v
      else if Int.fract v ≤ 3 / 4 then 2 - 4 * Int.fract v else 4 * Int.fract v - 4 := by
  split_ifs with hfirst hmiddle
  · exact triangleFn_turns_of_first_quarter hfirst
  · exact triangleFn_turns_of_middle_quarters (not_le.1 hfirst).le hmiddle
  · exact triangleFn_turns_of_last_quarter (not_le.1 hmiddle).le

/-- 42 R123 (b): the sine is not negative in the first half of a period, its end included. -/
theorem sin_turns_nonneg_iff (v : ℝ) : 0 ≤ Real.sin (2 * Real.pi * v) ↔ Int.fract v ≤ 1 / 2 := by
  have hpi := Real.pi_pos
  have hnonneg := Int.fract_nonneg v
  have hlt := Int.fract_lt_one v
  rw [← sin_turns_fract]
  constructor
  · intro hsin
    by_contra hle
    have hneg : Real.sin (2 * Real.pi * Int.fract v - 2 * Real.pi) < 0 :=
      Real.sin_neg_of_neg_of_neg_pi_lt (by nlinarith) (by nlinarith)
    rw [Real.sin_sub_two_pi] at hneg
    exact hneg.not_ge hsin
  · intro hle
    exact Real.sin_nonneg_of_mem_Icc ⟨by positivity, by nlinarith⟩

theorem squareFn_turns (v : ℝ) : squareFn (2 * Real.pi * v) = if Int.fract v ≤ 1 / 2 then 1 else -1 :=
  if_congr (sin_turns_nonneg_iff v) rfl rfl

theorem sawtoothFn_turns (v : ℝ) : sawtoothFn (2 * Real.pi * v) = v - 2 * (⌊v / 2⌋ : ℝ) - 1 := by
  rw [sawtoothFn, emod, radians_div_two_pi]

/-- SAWTOOTH climbs from -1 to 1 over a period of two turns (42 R124). -/
theorem sawtoothFn_eq_fract (x : ℝ) : sawtoothFn x = 2 * Int.fract (x / (2 * Real.pi) / 2) - 1 := by
  rw [sawtoothFn, emod, ← Int.self_sub_floor]
  ring

theorem sawtoothFn_mem_Ico (x : ℝ) : sawtoothFn x ∈ Set.Ico (-1) 1 := by
  rw [sawtoothFn_eq_fract]
  constructor
  · linarith [Int.fract_nonneg (x / (2 * Real.pi) / 2)]
  · linarith [Int.fract_lt_one (x / (2 * Real.pi) / 2)]

theorem sawtoothFn_periodic : Function.Periodic sawtoothFn (4 * Real.pi) := by
  intro x
  have hturns : (x + 4 * Real.pi) / (2 * Real.pi) / 2 = x / (2 * Real.pi) / 2 + 1 := by
    field_simp
    ring
  rw [sawtoothFn_eq_fract, sawtoothFn_eq_fract, hturns, Int.fract_add_one]

/-! ### SINE (42 R121) -/

theorem toReal_sineQuarter (u : Rat) : (sineQuarter u).toReal = Real.sin (2 * Real.pi * u) := by
  unfold sineQuarter
  split_ifs with hzero htwelfth hquarter
  · simp [hzero]
  · have hangle : 2 * Real.pi * ((1 / 12 : ℚ) : ℝ) = Real.pi / 6 := by
      push_cast
      ring
    rw [htwelfth, hangle, Real.sin_pi_div_six]
    simp
  · have hangle : 2 * Real.pi * ((1 / 4 : ℚ) : ℝ) = Real.pi / 2 := by
      push_cast
      ring
    rw [hquarter, hangle, Real.sin_pi_div_two]
    simp
  · simp [Wave.fn, sineFn, Phase.toReal]

/-- The symmetries by which `sineTurn` comes to the first quarter are those of the sine. -/
theorem toReal_sineTurn (u : Rat) : (sineTurn u).toReal = Real.sin (2 * Real.pi * u) := by
  unfold sineTurn
  split_ifs
  · exact toReal_sineQuarter u
  · have hangle : 2 * Real.pi * ((1 / 2 - u : ℚ) : ℝ) = Real.pi - 2 * Real.pi * u := by
      push_cast
      ring
    rw [toReal_sineQuarter, hangle, Real.sin_pi_sub]
  · have hangle : 2 * Real.pi * ((u - 1 / 2 : ℚ) : ℝ) = 2 * Real.pi * u - Real.pi := by
      push_cast
      ring
    rw [ExactNum.toReal_scale, toReal_sineQuarter, hangle, Real.sin_sub_pi]
    simp
  · have hangle : 2 * Real.pi * ((1 - u : ℚ) : ℝ) = 2 * Real.pi - 2 * Real.pi * u := by
      push_cast
      ring
    rw [ExactNum.toReal_scale, toReal_sineQuarter, hangle, Real.sin_two_pi_sub]
    simp

/-- A rational number of turns within its period has the sine of the whole number. -/
theorem toReal_sineTurn_position (q : Rat) :
    (sineTurn (q - (rootFloor q 0 : Rat))).toReal = Real.sin (2 * Real.pi * q) := by
  have hposition : ((q - (rootFloor q 0 : Rat) : ℚ) : ℝ) = Int.fract (q : ℝ) := by
    simp [rootFloor_eq_floor, Int.self_sub_floor]
  rw [toReal_sineTurn, hposition, sin_turns_fract]

theorem toReal_sineAt (x : Phase) : (sineAt x).toReal = Real.sin x.toReal := by
  unfold sineAt
  split
  · rename_i q m
    split_ifs with hwhole hpos
    · have hroot : (q : ℝ) * rootReal m.val = q := by
        rcases hwhole with rfl | rfl <;> simp
      rw [toReal_sineTurn_position, Phase.toReal, Scalar.toReal_rat, hroot]
    · simp [Wave.fn, sineFn]
    · simp [Wave.fn, sineFn, Phase.toReal]
  · simp [Wave.fn, sineFn]
  · rename_i q
    split_ifs with hzero hpos
    · simp [hzero, Phase.toReal]
    · simp [Wave.fn, sineFn]
    · simp [Wave.fn, sineFn, Phase.toReal]
  · simp [Wave.fn, sineFn]

/-! ### TRIANGLE, SQUARE and SAWTOOTH (42 R122 to R124) -/

theorem toReal_triangleAt (x : Phase) : (triangleAt x).toReal = triangleFn x.toReal := by
  cases x with
  | turns q m =>
    rw [triangleAt, floorTimes_four_emod, Phase.toReal]
    have hposition := toReal_periodPosition q m
    have hnonneg := Int.fract_nonneg (q.toReal * rootReal m.val)
    have hlt := Int.fract_lt_one (q.toReal * rootReal m.val)
    split_ifs with hfirst hlast
    · obtain ⟨-, hhigh⟩ := Int.floor_eq_zero_iff.1 hfirst
      rw [triangleFn_turns_of_first_quarter (by linarith)]
      simp [hposition]
    · obtain ⟨hlow, -⟩ := Int.floor_eq_iff.1 hlast
      rw [triangleFn_turns_of_last_quarter (by push_cast at hlow; linarith)]
      simp [hposition, sub_eq_add_neg]
    · have hlow : 1 / 4 ≤ Int.fract (q.toReal * rootReal m.val) := by
        by_contra hquarter
        exact hfirst (Int.floor_eq_zero_iff.2 ⟨by linarith, by linarith⟩)
      have hhigh : Int.fract (q.toReal * rootReal m.val) ≤ 3 / 4 := by
        by_contra hquarter
        exact hlast (Int.floor_eq_iff.2 ⟨by push_cast; linarith, by push_cast; linarith⟩)
      rw [triangleFn_turns_of_middle_quarters hlow hhigh]
      simp [hposition, sub_eq_add_neg]
  | radians x =>
    rw [triangleAt]
    split_ifs with hzero
    · simp [hzero, Phase.toReal, triangleFn]
    · exact ExactNum.toReal_ofWave .triangle _

theorem toReal_squareAt (x : Phase) : (squareAt x).toReal = squareFn x.toReal := by
  cases x with
  | turns q m =>
    rw [squareAt, Phase.toReal, squareFn_turns, if_congr (firstHalf_iff q m) rfl rfl]
    split_ifs <;> simp
  | radians x =>
    rw [squareAt]
    split_ifs with hzero
    · simp [hzero, Phase.toReal, squareFn]
    · exact ExactNum.toReal_ofWave .square _

theorem toReal_sawtoothAt (x : Phase) : (sawtoothAt x).toReal = sawtoothFn x.toReal := by
  cases x with
  | turns q m =>
    have hhalf : q.toReal / 2 * rootReal m.val = q.toReal * rootReal m.val / 2 := by ring
    rw [sawtoothAt, Phase.toReal, sawtoothFn_turns, ExactNum.toReal_add, ExactNum.toReal_mono, ExactNum.toReal_ofRat,
      Scalar.floorTimes_eq, Scalar.toReal_over, Scalar.toReal_rat]
    push_cast
    rw [hhalf]
    ring
  | radians x =>
    rw [sawtoothAt]
    split_ifs with hzero
    · simp [hzero, Phase.toReal, sawtoothFn, emod]
    · exact ExactNum.toReal_ofWave .sawtooth _

/-- What `oscAt` computes is the function that WAVE names (42 R125). -/
theorem toReal_oscAt (w : Wave) (x : Phase) : (oscAt w x).toReal = w.fn x.toReal := by
  cases w with
  | sine => exact toReal_sineAt x
  | triangle => exact toReal_triangleAt x
  | square => exact toReal_squareAt x
  | sawtooth => exact toReal_sawtoothAt x

/-! ### What the operations hand over -/

theorem exec_sine (x : Phase) (s : State) : exec (.sine x) s = .next (s.giveValue (sineAt x)) := rfl

theorem exec_triangle (x : Phase) (s : State) : exec (.triangle x) s = .next (s.giveValue (triangleAt x)) := rfl

theorem exec_square (x : Phase) (s : State) : exec (.square x) s = .next (s.giveValue (squareAt x)) := rfl

theorem exec_sawtooth (x : Phase) (s : State) : exec (.sawtooth x) s = .next (s.giveValue (sawtoothAt x)) := rfl

theorem exec_osc_of_opened {s : State} (ho : s.Opened) (x : Phase) :
    exec (.osc x) s = .next (s.giveValue (oscAt s.cfg.wave x)) :=
  onEngine_of_opened ho _

/-- Settles O19: `sineAt` brings the phase to the first quarter by symmetries of the sine. -/
theorem sineResult : Obligations.SineResult := fun s x =>
  ⟨sineAt x, exec_sine x s, toReal_sineAt x⟩

/-- Settles O20: the linear pieces of `triangleFn_turns` are what `triangleAt` computes, and hold for every real. -/
theorem triangleResult : Obligations.TriangleResult := by
  refine ⟨fun s x => ⟨triangleAt x, exec_triangle x s, toReal_triangleAt x⟩, fun x u hu => ?_⟩
  rw [Int.self_sub_floor] at hu
  have hpieces := triangleFn_turns (x / (2 * Real.pi))
  rwa [turns_of_radians, ← hu] at hpieces

/-- Settles O21: the sine is not negative exactly in the first half of the period, which is what `squareAt` tests. -/
theorem squareResult : Obligations.SquareResult := by
  refine ⟨fun s x => ⟨squareAt x, exec_square x s, toReal_squareAt x⟩, fun x u hu => ?_⟩
  rw [Int.self_sub_floor] at hu
  have hhalves := squareFn_turns (x / (2 * Real.pi))
  rwa [turns_of_radians, ← hu] at hhalves

/-- Settles O22: SAWTOOTH is affine in the fractional part of half the turns. -/
theorem sawtoothResult : Obligations.SawtoothResult := by
  refine ⟨fun s x => ⟨sawtoothAt x, exec_sawtooth x s, toReal_sawtoothAt x⟩, fun x => ?_⟩
  obtain ⟨hlow, hhigh⟩ := sawtoothFn_mem_Ico x
  exact ⟨hlow, hhigh, sawtoothFn_periodic x⟩

/-- Settles O23: an opened engine lets OSC complete, and its value is that of the function WAVE names. -/
theorem oscResult : Obligations.OscResult := by
  intro s x ho
  refine ⟨oscAt s.cfg.wave x, exec_osc_of_opened ho x, ?_⟩
  rw [toReal_oscAt]
  cases s.cfg.wave <;> rfl

/-! ### Bounds (42 R120, R126) -/

theorem triangleFn_mem_Icc (x : ℝ) : triangleFn x ∈ Set.Icc (-1) 1 := by
  obtain ⟨hlow, hhigh⟩ := Real.arcsin_mem_Icc (Real.sin x)
  have hpi := Real.pi_div_two_pos
  rw [triangleFn, Set.mem_Icc, le_div_iff₀ hpi, div_le_iff₀ hpi]
  constructor <;> linarith

theorem squareFn_mem_Icc (x : ℝ) : squareFn x ∈ Set.Icc (-1) 1 := by
  unfold squareFn
  split_ifs <;> norm_num

theorem fn_mem_Icc (w : Wave) (x : ℝ) : w.fn x ∈ Set.Icc (-1) 1 := by
  cases w with
  | sine => exact Real.sin_mem_Icc x
  | triangle => exact triangleFn_mem_Icc x
  | square => exact squareFn_mem_Icc x
  | sawtooth => exact Set.Ico_subset_Icc_self (sawtoothFn_mem_Ico x)

/-- Settles O24: the four functions are bounded, and OSC hands over a value of one of them. -/
theorem oscillatorsAreBounded : Obligations.OscillatorsAreBounded := by
  refine ⟨fn_mem_Icc, fun s u x v h hv => ?_⟩
  cases completed_of_exec h
  cases hv
  rw [toReal_oscAt]
  exact fn_mem_Icc s.cfg.wave x.toReal

/-! ### The operations that only compute a value -/

theorem giveValue_frame (s : State) (v : ExactNum) :
    s.giveValue v = { s with ret := (s.giveValue v).ret } ∧ ∀ a : Nat, (s.giveValue v).outRead a = s.outRead a :=
  ⟨rfl, fun _ => rfl⟩

/-- Settles O25: each of the seven completes by handing over a value. -/
theorem valueOperationsFrame : Obligations.ValueOperationsFrame := by
  intro s u x l i h
  rcases h with h | h | h | h | h | h | h <;> cases completed_of_exec h <;> exact giveValue_frame s _

end Sys2Proof.Machine
end

section
/-! SUPPORT. The frequency mapping (43_frequency.md): how FREQ splits an index into whole octaves and a rest, the frequency over the reals, and what FREQ hands over. -/

namespace Sys2Proof

/-- The integer power of two, as Mathlib writes it. -/
theorem powTwo_eq_zpow (k : Int) : powTwo k = (2 : Rat) ^ k :=
  Rat.cast_injective (α := ℝ) (by rw [powTwo_cast, Real.rpow_intCast, Rat.cast_zpow, Rat.cast_ofNat])

theorem ExactNum.scale_mono_rat (a q : Rat) (m : Fin Config.semitones) :
    (ExactNum.mono (.rat q) m).scale (.rat a) = ExactNum.mono (.rat (a * q)) m := by
  by_cases ha : a = 0
  · simp [ExactNum.mono, ExactNum.term, ExactNum.scale, ha]
  · by_cases hq : q = 0 <;> simp [ExactNum.mono, ExactNum.term, ExactNum.scale, Scalar.times, ha, hq]

end Sys2Proof

namespace Sys2Proof.Machine

/-! ### Whole octaves and the rest (43 R130) -/

theorem freqRoot_val (i : NoteIx) : ((freqRoot i).val : Int) = semitonesFromRef i % 12 := by
  change (((semitonesFromRef i % 12).toNat % 12 : Nat) : Int) = semitonesFromRef i % 12
  omega

theorem semitonesFromRef_octave {i j : NoteIx} (hij : j.val = i.val + 12) :
    semitonesFromRef j = semitonesFromRef i + 12 := by
  unfold semitonesFromRef
  omega

/-- An octave up leaves the rest below one octave as it is. -/
theorem freqRoot_octave {i j : NoteIx} (hij : j.val = i.val + 12) : freqRoot j = freqRoot i := by
  have hi := freqRoot_val i
  have hj := freqRoot_val j
  rw [semitonesFromRef_octave hij] at hj
  omega

/-- The distance from note 69 in octaves is the whole octaves of the factor and the twelfths of the root. -/
theorem octaves_add_root (i : NoteIx) :
    ((semitonesFromRef i / 12 : Int) : ℝ) + (freqRoot i).val / 12 = ((i.val : ℝ) - 69) / 12 := by
  have hsplit : 12 * (semitonesFromRef i / 12) + ((freqRoot i).val : Int) = (i.val : Int) - 69 := by
    rw [freqRoot_val, Int.mul_ediv_add_emod]
    rfl
  have hreal : (12 : ℝ) * ((semitonesFromRef i / 12 : Int) : ℝ) + (freqRoot i).val = (i.val : ℝ) - 69 := by
    exact_mod_cast hsplit
  rw [← hreal]
  ring

/-! ### The frequency over the reals -/

theorem freqReal_eq (c : Cfg) (i : NoteIx) :
    freqReal c i = c.referenceFrequency.toReal * (2 : ℝ) ^ (((i.val : ℝ) - 69) / 12) := by
  simp [freqReal, Config.refIndex, Config.semitones]

/-- `freqAt` stands for the frequency of 43 R130: the powers of its factor and its root add up. -/
theorem toReal_freqAt (c : Cfg) (i : NoteIx) : (freqAt c i).toReal = freqReal c i := by
  rw [freqReal_eq, freqAt, ExactNum.toReal_mono, freqFactor, Scalar.toReal_times, Scalar.toReal_rat, powTwo_cast,
    rootReal, mul_assoc, ← Real.rpow_add two_pos]
  congr 2
  exact octaves_add_root i

theorem freqReal_refIndex (c : Cfg) : freqReal c 69 = c.referenceFrequency.toReal := by
  rw [freqReal_eq, show ((69 : NoteIx).val : ℝ) = 69 from rfl, sub_self, zero_div, Real.rpow_zero, mul_one]

theorem freqReal_octave (c : Cfg) {i j : NoteIx} (hij : j.val = i.val + 12) : freqReal c j = 2 * freqReal c i := by
  have hexp : ((j.val : ℝ) - 69) / 12 = 1 + ((i.val : ℝ) - 69) / 12 := by
    rw [hij]
    push_cast
    ring
  rw [freqReal_eq, freqReal_eq, hexp, Real.rpow_add two_pos, Real.rpow_one]
  ring

theorem freqReal_strictMono {c : Cfg} (hc : c.legal = true) : StrictMono (freqReal c) := by
  obtain ⟨-, -, -, -, -, hreference, -⟩ := (legal_iff c).1 hc
  intro i j hij
  have hcast : (i.val : ℝ) < j.val := by exact_mod_cast hij
  have hexp : ((i.val : ℝ) - 69) / 12 < ((j.val : ℝ) - 69) / 12 := by linarith
  rw [freqReal_eq, freqReal_eq]
  exact mul_lt_mul_of_pos_left (Real.rpow_lt_rpow_of_exponent_lt one_lt_two hexp) hreference

/-! ### A rational reference -/

theorem freqFactor_of_rat {c : Cfg} {q : Rat} (hq : c.referenceFrequency = .rat q) (i : NoteIx) :
    freqFactor c i = .rat (q * 2 ^ (semitonesFromRef i / 12)) := by
  rw [freqFactor, hq, Scalar.times, powTwo_eq_zpow]
  rfl

theorem freqAt_refIndex_of_rat {c : Cfg} {q : Rat} (hq : c.referenceFrequency = .rat q) :
    freqAt c 69 = ExactNum.ofRat q := by
  have hoctaves : semitonesFromRef 69 / 12 = 0 := by decide
  have hroot : freqRoot 69 = 0 := by decide
  rw [freqAt, freqFactor_of_rat hq, hoctaves, hroot, zpow_zero, mul_one]
  rfl

theorem freqAt_octave_of_rat {c : Cfg} {q : Rat} (hq : c.referenceFrequency = .rat q) {i j : NoteIx}
    (hij : j.val = i.val + 12) : freqAt c j = (freqAt c i).scale (.rat 2) := by
  have hoctaves : (semitonesFromRef i + 12) / 12 = semitonesFromRef i / 12 + 1 := by omega
  rw [freqAt, freqAt, freqFactor_of_rat hq, freqFactor_of_rat hq, ExactNum.scale_mono_rat, freqRoot_octave hij,
    semitonesFromRef_octave hij, hoctaves, zpow_add_one₀ two_ne_zero]
  congr 2
  ring

/-! ### What FREQ hands over -/

theorem exec_freq_of_opened {s : State} (ho : s.Opened) (i : NoteIx) :
    exec (.freq i) s = .next (s.giveValue (freqAt s.cfg i)) :=
  onEngine_of_opened ho _

/-- The value FREQ hands over is determined by the note. -/
theorem exec_freq_eq_next_iff {s : State} (ho : s.Opened) (i : NoteIx) (v : ExactNum) :
    exec (.freq i) s = .next { s with ret := .value v } ↔ v = freqAt s.cfg i := by
  rw [exec_freq_of_opened ho, State.giveValue]
  simp [eq_comm]

/-- Settles O26: the value of FREQ stands for the frequency over the reals. -/
theorem freqResult : Obligations.FreqResult := fun s i ho =>
  ⟨freqAt s.cfg i, exec_freq_of_opened ho i, (toReal_freqAt s.cfg i).trans (freqReal_eq s.cfg i)⟩

/-- Settles O27: an octave adds 1 to the exponent and leaves the root, and the power of 2 rises strictly. -/
theorem freqOctavesAreExact : Obligations.FreqOctavesAreExact := by
  intro s ho
  simp only [exec_freq_eq_next_iff ho]
  refine ⟨⟨freqAt s.cfg 69, rfl, ?_⟩, ?_, fun q hq => ⟨(freqAt_refIndex_of_rat hq).symm, ?_⟩, ?_⟩
  · rw [toReal_freqAt, freqReal_refIndex]
  · rintro i j _ _ hij rfl rfl
    rw [toReal_freqAt, toReal_freqAt, freqReal_octave s.cfg hij]
  · rintro i j _ hij rfl
    exact (freqAt_octave_of_rat hq hij).symm
  · rintro i j _ _ hij rfl rfl
    rw [toReal_freqAt, toReal_freqAt]
    exact freqReal_strictMono ho.2 hij

end Sys2Proof.Machine
end

section
/-! SUPPORT. Event ingestion (44_event_ingestion.md): what the operation of one record does, and INGEST as a recursion on the queue. -/

namespace Sys2Proof.Machine

/-! ### One record (44 R137, R138, R139) -/

theorem exec_event_of_opened {s : State} (ho : s.Opened) (e : Event) :
    exec e.toInstr s = .next (s.applyEvent s.tick e) :=
  (exec_event e s).trans (onEngine_of_opened ho _)

/-- Settles O15: the operation of a record applies its event at `tick`, by the same update as PRESS and RELEASE. -/
theorem recordOperationsResult : Obligations.RecordOperationsResult := fun s status n v ho =>
  ⟨⟨s.pressAt n s.tick, exec_event_of_opened ho (.noteOn n v), exec_press_of_opened ho n s.tick⟩,
    ⟨s.releaseAt n s.tick, exec_event_of_opened ho (.noteOff n v), exec_release_of_opened ho n s.tick⟩,
    exec_event_of_opened ho (.other status n v)⟩

/-! ### The fields that an event leaves as they were -/

@[simp] theorem State.applyEvent_tick (s : State) (t : Nat) (e : Event) : (s.applyEvent t e).tick = s.tick := by
  rw [applyEvent_eq]

@[simp] theorem State.applyEvent_evq (s : State) (t : Nat) (e : Event) : (s.applyEvent t e).evq = s.evq := by
  rw [applyEvent_eq]

theorem State.Opened.applyEvent {s : State} (ho : s.Opened) (t : Nat) (e : Event) : (s.applyEvent t e).Opened := by
  rw [applyEvent_eq]
  exact ho

/-! ### The drain (44 R135, R136) -/

theorem exec_ingest_of_opened {s : State} (ho : s.Opened) : exec .ingest s = .next s.ingested :=
  onEngine_of_opened ho _

theorem ingested_of_evq_nil {s : State} (hq : s.evq = []) : s.ingested = s := by
  rw [State.ingested, hq, drain, ← hq]

/-- An ingestion is the event of the oldest record, applied with the record gone from EVQ, and then the ingestion of the rest:
`tick` is still the same. -/
theorem ingested_of_evq_cons {s : State} {r : Record} {q : List Record} (hq : s.evq = r :: q) :
    s.ingested = ((s.setEvq q).applyEvent s.tick (decodeEvent r)).ingested := by
  rw [State.ingested, State.ingested, hq, State.applyEvent_tick, State.applyEvent_evq]
  rfl

/-- Settles O16: the first two clauses are the recursion of the drain, the third is its frame. -/
theorem ingestAppliesRecordsInOrder : Obligations.IngestAppliesRecordsInOrder := by
  refine ⟨fun s ho hq => ?_, fun s r q ho hq => ?_, fun s ho => ?_⟩
  · rw [exec_ingest_of_opened ho, ingested_of_evq_nil hq]
  · have hpopped : (s.setEvq q).Opened := ho
    refine ⟨(s.setEvq q).applyEvent s.tick (decodeEvent r), exec_event_of_opened hpopped _,
      State.applyEvent_tick _ _ _, ?_⟩
    rw [exec_ingest_of_opened ho, exec_ingest_of_opened (hpopped.applyEvent _ _), ingested_of_evq_cons hq]
  · exact ⟨s.ingested, exec_ingest_of_opened ho, s.ingested_evq, ingested_eq s, outRead_of_out_eq s.ingested_out⟩

end Sys2Proof.Machine
end

section
/-! SUPPORT. One FRAME (45 R152, R154, R155): its amplitude over the reals, what it leaves in OUT and in the notes, and when it faults. -/

namespace Sys2Proof.Machine

/-! ### FRAME on an opened engine -/

theorem exec_frame_of_opened {s : State} (ho : s.Opened) (k : Nat) : exec (.frame k) s = s.rendered k :=
  onEngine_of_opened ho _

theorem tickFits_eq_false_iff (s : State) (n : Nat) :
    s.tickFits n = false ↔ ∃ w : Nat, s.impl.tickW = some w ∧ 2 ^ w ≤ n := by
  unfold State.tickFits
  cases s.impl.tickW <;> simp

theorem rendered_eq_fault_iff (s : State) (k : Nat) :
    s.rendered k = .fault .tickOverflow ↔ s.tickFits (s.tick + 1) = false := by
  rcases rendered_cases s k with ⟨hfits, hnext⟩ | ⟨hfull, hfault⟩
  · simp [hfits, hnext]
  · simp [hfull, hfault]

/-- Settles O39: the last act of a frame is the increment, which overflows exactly when the counter does not fit. -/
theorem frameFaultsExactlyAtTickOverflow : Obligations.FrameFaultsExactlyAtTickOverflow := by
  intro s k ho
  rw [exec_frame_of_opened ho, rendered_eq_fault_iff, tickFits_eq_false_iff]

/-- Settles O43: EVQ is changed with the channel as it is, and a frame keeps the channel. -/
theorem framesDoNotSeeTheQueue : Obligations.FramesDoNotSeeTheQueue := by
  intro s u k q h
  have hchan : u.chan = s.chan := by
    cases completed_of_exec h with
    | frame _ _ hrun => rw [rendered_next hrun]
  show exec (.frame k) (s.setQueue q s.chan) = .next (u.setQueue q u.chan)
  rw [hchan]
  exact exec_frame_setQueue h q s.chan

/-! ### What a frame writes -/

theorem noteAfterScan_active {c : Cfg} {t : Nat} {n : Note} (h : (noteAfterScan c t n).active = true) :
    n.active = true := by
  unfold noteAfterScan at h
  split_ifs at h with hend
  · exact hend.1
  · exact h

@[simp] theorem State.mixed_state_cfg (s : State) (t : Nat) : (s.mixed t).2.cfg = s.cfg := by rw [mixed_state_eq]
@[simp] theorem State.mixed_state_out (s : State) (t : Nat) : (s.mixed t).2.out = s.out := by rw [mixed_state_eq]

/-- What a frame leaves in each element of OUT: its amplitude in the elements of its channels, the others as before. -/
theorem outRead_rendered {s u : State} {k : Nat} (h : s.rendered k = .next u) (a : Nat) :
    u.outRead a
      = if ∃ ch < s.cfg.channels, outIndex s.cfg k ch = a then some (s.mixed s.tick).1 else s.outRead a := by
  have hout : u.out = ((s.mixed s.tick).2.writeFrame k (s.mixed s.tick).1).out := by rw [rendered_next h]
  rw [outRead_of_out_eq hout, writeFrame_outRead, State.mixed_state_cfg, outRead_of_out_eq (s.mixed_state_out s.tick)]

/-- Settles O38: a frame writes the Note table, OUT and `tick`, its scan at most takes notes out of the mix, and a FILL
adds to these the fields of its INGEST. -/
theorem renderFrame : Obligations.RenderFrame := by
  refine ⟨fun s u k h => ?_, fun s u frames h => ?_⟩
  · cases completed_of_exec h with
    | frame _ _ hrun =>
      refine ⟨by rw [rendered_next hrun], fun i => ⟨(rendered_sameKey hrun i).eq_with_active, fun hactive => ?_⟩⟩
      rw [note_rendered hrun] at hactive
      exact noteAfterScan_active hactive
  · cases completed_of_exec h with
    | fill _ _ _ hrun => rw [fill_eq hrun]

/-! ### The amplitude of a frame over the reals (45 R152) -/

theorem toReal_voicePhase (c : Cfg) (t : Nat) (i : NoteIx) : (voicePhase c t i).toReal = phaseReal c t i := by
  rw [phaseReal, ← toReal_freqAt, freqAt, ExactNum.toReal_mono, voicePhase, Phase.toReal, Scalar.toReal_times,
    Scalar.toReal_rat, secondsAt]
  push_cast
  ring

theorem toReal_envValue (c : Cfg) (n : Note) (t : Nat) : (envValue c n t).toReal = envReal c n t := by
  unfold envValue envReal
  simp only [Scalar.le_iff, toReal_releaseValue, Scalar.toReal_rat, releaseRamp]
  split_ifs
  · exact toReal_adsAt_secondsSince c t n.tickPressed
  · exact Rat.cast_zero
  · exact toReal_releaseValue c n t

/-- What note `i`, in the state `n`, contributes to the frame at time `t` (45 R152). -/
noncomputable def voiceReal (c : Cfg) (t : Nat) (n : Note) (i : NoteIx) : ℝ :=
  if n.active then c.wave.fn (phaseReal c t i) * envReal c n t * c.masterVolume.toReal else 0

theorem toReal_mixVoice (t : Nat) (acc : ExactNum × State) (i : NoteIx) :
    (mixVoice t acc i).1.toReal = acc.1.toReal + voiceReal acc.2.cfg t (acc.2.note i) i := by
  unfold mixVoice voiceReal
  split_ifs with ha
  · rw [ExactNum.toReal_add, ExactNum.toReal_scale, Scalar.toReal_times, toReal_oscAt, toReal_voicePhase,
      envAt_of_active ha, toReal_envValue]
    ring
  · exact (add_zero _).symm

/-- The scan of distinct notes adds up what each contributes as the scan found it: a step writes its own note only. -/
theorem toReal_mixFold (t : Nat) (l : List NoteIx) (hl : l.Nodup) :
    ∀ acc : ExactNum × State, (l.foldl (mixVoice t) acc).1.toReal
      = acc.1.toReal + (l.map fun j => voiceReal acc.2.cfg t (acc.2.note j) j).sum := by
  induction l with
  | nil => intro acc; simp
  | cons i l ih =>
    intro acc
    obtain ⟨hi, hl⟩ := List.nodup_cons.1 hl
    have hrest : (l.map fun j => voiceReal acc.2.cfg t ((mixVoice t acc i).2.note j) j)
        = l.map fun j => voiceReal acc.2.cfg t (acc.2.note j) j :=
      List.map_congr_left fun j hj => by rw [mixVoice_note, if_neg (ne_of_mem_of_not_mem hj hi).symm]
    rw [List.foldl_cons, ih hl, toReal_mixVoice, mixVoice_cfg, hrest, List.map_cons, List.sum_cons, add_assoc]

theorem toReal_mixed (s : State) (t : Nat) : (s.mixed t).1.toReal = amplitudeReal s t := by
  rw [State.mixed, toReal_mixFold t scanOrder scanOrder_nodup, ExactNum.toReal_zero, zero_add, amplitudeReal,
    Fin.sum_univ_def]
  rfl

/-- Settles O37: with room the frame completes, its channels hold the sum of the scan, and the scan leaves a note as
ENV does. -/
theorem frameMixesEveryActiveNote : Obligations.FrameMixesEveryActiveNote := by
  intro s k ho hroom
  obtain ⟨u, hu⟩ := rendered_completes hroom k
  refine ⟨u, (exec_frame_of_opened ho k).trans hu, by rw [rendered_next hu], fun ch hch => ?_, fun a ha => ?_,
    fun i => ⟨_, exec_env_of_opened ho i s.tick, ?_⟩⟩
  · refine ⟨(s.mixed s.tick).1, ?_, toReal_mixed s s.tick⟩
    rw [outRead_rendered hu, if_pos ⟨ch, hch, rfl⟩]
  · rw [outRead_rendered hu, if_neg fun ⟨ch, hch, hat⟩ => ha ch hch hat.symm]
  · rw [note_rendered hu, note_of_notes_eq (State.giveValue_notes _ _), note_envAt_same]

end Sys2Proof.Machine
end

section
/-! SUPPORT. FILL performed whole (45 R150): the ingestion and the frames in order, and the buffer they fill. -/

namespace Sys2Proof.Machine

theorem exec_fill_of_ready {s : State} (ho : s.Opened) (hr : s.IsReady) (frames : Nat) :
    exec (.fill frames) s = renderFrames frames 0 (s.ingested.setOut []) :=
  (onEngine_of_opened ho _).trans (if_pos hr)

/-! ### The frames in order -/

theorem renderFrames_one (k : Nat) (s : State) : renderFrames 1 k s = s.rendered k := by
  rcases rendered_cases s k with ⟨-, hnext⟩ | ⟨-, hfault⟩
  · rw [renderFrames_succ_of_next hnext, hnext]
    rfl
  · rw [renderFrames_succ_of_fault hfault, hfault]

/-- One frame more is the frame of the next index, after the others. -/
theorem renderFrames_succ_last {u : State} (count : Nat) : ∀ {k : Nat} {s : State},
    renderFrames count k s = .next u → renderFrames (count + 1) k s = u.rendered (k + count) := by
  induction count with
  | zero =>
    intro k s h
    cases h
    exact renderFrames_one k _
  | succ count ih =>
    intro k s h
    obtain ⟨w, hw, hrest⟩ := renderFrames_succ_next h
    rw [renderFrames_succ_of_next hw, ih hrest, Nat.add_right_comm, Nat.add_assoc]

theorem renderFrames_opened {s u : State} {count k : Nat} (h : renderFrames count k s = .next u) (ho : s.Opened) :
    u.Opened := by
  rw [renderFrames_eq count h]
  exact ho

theorem State.Opened.ingested {s : State} (ho : s.Opened) : s.ingested.Opened := by
  rw [ingested_eq]
  exact ho

/-- Settles O40: FILL(0) renders no frame, and FILL(P + 1) ends with the frame of index P. -/
theorem fillIsIngestThenFrames : Obligations.FillIsIngestThenFrames := by
  intro s ho hr
  refine ⟨⟨s.ingested, exec_ingest_of_opened ho, exec_fill_of_ready ho hr 0⟩, fun frames u h => ?_⟩
  rw [exec_fill_of_ready ho hr] at h ⊢
  rw [renderFrames_succ_last frames h, Nat.zero_add,
    exec_frame_of_opened (renderFrames_opened h ho.ingested)]

/-! ### The buffer (20 R57) -/

/-- OUT holds `frames` whole frames and nothing else, and in each the channels are equal. -/
structure State.FilledTo (s : State) (frames : Nat) : Prop where
  written : ∀ a : Nat, (s.outRead a).isSome = true ↔ a < frames * s.cfg.channels
  channels : ∀ k ch : Nat, k < frames → ch < s.cfg.channels →
    s.outRead (k * s.cfg.channels + ch) = s.outRead (k * s.cfg.channels)

theorem filledTo_zero {s : State} (h : s.out = []) : s.FilledTo 0 where
  written a := by simp [State.outRead, h, Memory.read]
  channels k ch hk _ := absurd hk (Nat.not_lt_zero k)

/-- The elements of frame `k` are those from `k * C` on, below `(k + 1) * C`. -/
theorem exists_outIndex_eq_iff (c : Cfg) (k a : Nat) :
    (∃ ch < c.channels, outIndex c k ch = a) ↔ k * c.channels ≤ a ∧ a < (k + 1) * c.channels := by
  rw [Nat.succ_mul]
  constructor
  · rintro ⟨ch, hch, rfl⟩
    unfold outIndex
    omega
  · intro ⟨hlow, hhigh⟩
    exact ⟨a - k * c.channels, by omega, Nat.add_sub_cancel' hlow⟩

theorem mul_add_lt_mul_of_lt {k frames ch c : Nat} (hk : k < frames) (hch : ch < c) : k * c + ch < frames * c :=
  calc k * c + ch < (k + 1) * c := by rw [Nat.succ_mul]; omega
    _ ≤ frames * c := Nat.mul_le_mul_right c hk

/-- A buffer filled up to frame `k` is filled by frame `k` with one frame more. -/
theorem State.FilledTo.rendered {s u : State} {k : Nat} (h : s.FilledTo k) (hu : s.rendered k = .next u) :
    u.FilledTo (k + 1) := by
  have hcfg : u.cfg = s.cfg := by rw [rendered_next hu]
  have hread := outRead_rendered hu
  simp only [exists_outIndex_eq_iff] at hread
  constructor
  · intro a
    have hold := h.written a
    rw [hread, hcfg]
    have hmono : k * s.cfg.channels ≤ (k + 1) * s.cfg.channels := Nat.mul_le_mul_right _ k.le_succ
    split_ifs with hnew
    · simp [hnew.2]
    · rw [hold]
      omega
  · intro j ch hj hch
    rw [hcfg] at hch ⊢
    have hC : 0 < s.cfg.channels := Nat.zero_lt_of_lt hch
    rcases Nat.lt_succ_iff_lt_or_eq.1 hj with hjk | rfl
    · have hlast := mul_add_lt_mul_of_lt hjk hch
      rw [hread, hread, if_neg (by omega), if_neg (by omega)]
      exact h.channels j ch hjk hch
    · rw [hread, hread, Nat.succ_mul, if_pos (by omega), if_pos (by omega)]

/-! ### Completion -/

theorem tickFits_of_le {s : State} {m n : Nat} (hmn : m ≤ n) (h : s.tickFits n = true) : s.tickFits m = true := by
  rw [← Bool.not_eq_false, tickFits_eq_false_iff] at h ⊢
  exact fun ⟨w, hw, hm⟩ => h ⟨w, hw, hm.trans hmn⟩

/-- With room for all their ticks, frames from 0 on complete and fill the buffer frame by frame. -/
theorem renderFrames_completes {s : State} (hs : s.FilledTo 0) (frames : Nat) : s.HasRoomFor frames →
    ∃ u, renderFrames frames 0 s = .next u ∧ u.FilledTo frames := by
  induction frames with
  | zero => exact fun _ => ⟨s, rfl, hs⟩
  | succ frames ih =>
    intro hroom
    obtain ⟨w, hw, hfilled⟩ := ih (tickFits_of_le (Nat.le_succ _) hroom)
    have hroomw : w.HasRoomFor 1 := by
      rw [renderFrames_eq frames hw]
      exact hroom
    obtain ⟨u, hu⟩ := rendered_completes hroomw frames
    refine ⟨u, ?_, hfilled.rendered hu⟩
    rw [renderFrames_succ_last frames hw, Nat.zero_add, hu]

/-- Settles O41: the frames complete and fill the empty buffer; the other fields are those of the frame of FILL. -/
theorem fillCompletesWithAFullBuffer : Obligations.FillCompletesWithAFullBuffer := by
  intro s frames ho hr hroom
  have hroom' : (s.ingested.setOut []).HasRoomFor frames := by
    rw [ingested_eq]
    exact hroom
  obtain ⟨u, hu, hwritten, hchannels⟩ := renderFrames_completes (filledTo_zero rfl) frames hroom'
  have hfill := fill_eq hu
  have hcfg : u.cfg = s.cfg := by rw [hfill]
  rw [hcfg] at hwritten hchannels
  refine ⟨u, (exec_fill_of_ready ho hr frames).trans hu, ?_, ?_, ?_, renderFrames_opened hu ho.ingested,
    hwritten, hchannels⟩
  · rw [hfill]
  · rw [hfill]
  · rw [hfill]
    exact hr

end Sys2Proof.Machine
end

section
/-! SUPPORT. The micro-steps of a FILL (45 R151): each step on its own, and all of them against the FILL performed whole. -/

namespace Sys2Proof.Machine

/-! ### The next move -/

theorem step_perform {s : State} {i : Instr} {rest : List Move} (h : s.script = .perform i :: rest) :
    step s = exec i { s with script := rest } :=
  step_cons h

/-- The engine has its turn when that is the next move, and when no move is left. -/
theorem step_engine {s : State} {rest : List Move} (h : s.script = .engine :: rest ∨ (s.script = [] ∧ rest = [])) :
    step s = engineStep { s with script := rest } := by
  rcases h with h | ⟨h, rfl⟩
  · exact step_cons h
  · rw [step_nil h, ← h]

/-- Settles O5: the move is removed, and at the engine's turn the record is popped. -/
theorem stepRunsTheDecodedOperation : Obligations.StepRunsTheDecodedOperation := by
  refine ⟨fun s i rest h => step_perform h, fun s frames r q rest hseq hevq hscript => ?_,
    fun s frames r q hseq hevq hscript => ?_⟩
  · rw [step_engine (.inl hscript)]
    exact engineStep_pop hseq hevq
  · rw [step_nil hscript]
    exact engineStep_pop hseq hevq

theorem acceptFill_of_ready {s : State} (ho : s.Opened) (hr : s.IsReady) (frames : Nat) :
    s.acceptFill frames = .next { s with seq := .ingesting frames, out := [] } :=
  (onEngine_of_opened ho _).trans (if_pos hr)

theorem step_request {s : State} {frames : Nat} {rest : List Move} (ho : s.Opened) (hr : s.IsReady)
    (h : s.script = .request frames :: rest) :
    step s = .next { s with seq := .ingesting frames, out := [], script := rest } := by
  have hpopped : ({ s with script := rest } : State).Opened := ho
  exact (step_cons h).trans (acceptFill_of_ready hpopped hr frames)

/-- Settles O6: the request, and the micro-steps of the engine in the order of its sequencer. -/
theorem fillMicroSteps : Obligations.FillMicroSteps := by
  refine ⟨fun s frames rest ho hr h => step_request ho hr h, fun s rest h => ?_⟩
  rw [step_engine h]
  exact ⟨fun frames hseq hevq => engineStep_drained hseq hevq,
    fun u k frames hseq hframe => engineStep_frame hseq hframe,
    fun k frames hseq hframe => engineStep_frame_fault hseq hframe,
    fun hseq => engineStep_ready hseq⟩

/-! ### The placing of a word -/

theorem fetchSeq_ingesting (q : Seq) : ∃ frames, fetchSeq q = .ingesting frames := by
  cases q <;> exact ⟨_, rfl⟩

theorem step_withRecord (s : State) (r : Record) :
    step (s.withRecord r) = exec (decodeRecord r) { s with seq := fetchSeq s.seq } := by
  obtain ⟨frames, hseq⟩ := fetchSeq_ingesting s.seq
  exact (step_engine (.inl rfl)).trans (engineStep_pop hseq rfl)

theorem step_withMove (s : State) (i : Instr) : step (s.withMove i) = exec i s :=
  step_perform rfl

theorem withFetchWord_of_wave {w : Nat} {i : Instr} (h : decodeTableWord 8 w = some i) (s : State) :
    s.withFetchWord 8 w = s.withMove i := by
  rw [State.withFetchWord, if_neg (by decide), h]

/-- Settles O7: a record is placed at the head of EVQ with the engine to move, a WAVE selector as the next move. -/
theorem placedWordRunsNext : Obligations.PlacedWordRunsNext := by
  refine ⟨fun s w => ⟨decodeTableWord_record w, step_withRecord s (Record.ofWord w)⟩, fun s w i h => ?_⟩
  rw [withFetchWord_of_wave h, step_withMove]

/-! ### Runs -/

theorem run_succ_of_next {s w : State} (h : step s = .next w) (n : Nat) : core.run (n + 1) s = core.run n w := by
  have hcore : core.step s = .next w := h
  simp only [Host.Core.run, hcore]

theorem run_succ_of_fault {s : State} {f : Fault} (h : step s = .fault f) (n : Nat) : core.run (n + 1) s = .fault f := by
  have hcore : core.step s = .fault f := h
  simp only [Host.Core.run, hcore]

/-! ### The sequencer and the script, which the operations of a FILL do not read -/

/-- `s` with the sequencer at `q` and the moves `moves` to come. -/
def State.setTurn (s : State) (q : Seq) (moves : List Move) : State := { s with seq := q, script := moves }

theorem unseen_setTurn (q : Seq) (moves : List Move) : Unseen fun s => s.setTurn q moves :=
  ⟨fun _ _ => rfl, fun _ => rfl, fun _ _ _ => rfl, fun _ _ _ _ => rfl⟩

theorem writeFrame_setTurn (s : State) (q : Seq) (moves : List Move) (k : Nat) (v : ExactNum) :
    (s.setTurn q moves).writeFrame k v = (s.writeFrame k v).setTurn q moves :=
  List.foldl_hom (fun u : State => u.setTurn q moves) (g₁ := fun u ch => u.outWrite k v ch) (fun _ _ => rfl)

theorem rendered_setTurn_fault {s : State} {k : Nat} (h : s.rendered k = .fault .tickOverflow) (q : Seq)
    (moves : List Move) : (s.setTurn q moves).rendered k = .fault .tickOverflow :=
  (rendered_eq_fault_iff _ k).2 ((rendered_eq_fault_iff s k).1 h)

theorem rendered_setTurn_next {s u : State} {k : Nat} (h : s.rendered k = .next u) (q : Seq) (moves : List Move) :
    (s.setTurn q moves).rendered k = .next (u.setTurn q moves) := by
  have hmix : (s.setTurn q moves).mixed (s.setTurn q moves).tick
      = Prod.map id (State.setTurn · q moves) (s.mixed s.tick) :=
    (unseen_setTurn q moves).mixed_comm s s.tick
  rcases rendered_cases (s.setTurn q moves) k with ⟨-, hnext⟩ | ⟨hfull, -⟩
  · rw [hnext, hmix, Prod.map_snd, Prod.map_fst, writeFrame_setTurn, rendered_next h]
    rfl
  · exact nomatch h.symm.trans ((rendered_eq_fault_iff s k).2 hfull)

/-! ### The drain in micro-steps -/

/-- The engine's turn in the drain applies the oldest record, with the record and the turn gone. -/
theorem step_drain {s : State} {r : Record} {q : List Record} (ho : s.Opened) (hq : s.evq = r :: q) (frames : Nat)
    (moves : List Move) :
    step (s.setTurn (.ingesting frames) (.engine :: moves))
      = .next (((s.setEvq q).applyEvent s.tick (decodeEvent r)).setTurn (.ingesting frames) moves) := by
  have hpopped : ((s.setEvq q).setTurn (.ingesting frames) moves).Opened := ho
  have hexec := exec_event_of_opened hpopped (decodeEvent r)
  rw [(unseen_setTurn _ moves).applyEvent_comm] at hexec
  exact (step_engine (.inl rfl)).trans ((engineStep_pop (s := s.setTurn _ moves) rfl hq).trans hexec)

/-- One turn for each record is the whole ingestion. -/
theorem run_drain (frames n : Nat) (rest : List Move) (q : List Record) : ∀ {s : State}, s.Opened → s.evq = q →
    core.run (q.length + n) (s.setTurn (.ingesting frames) (List.replicate q.length .engine ++ rest))
      = core.run n (s.ingested.setTurn (.ingesting frames) rest) := by
  induction q with
  | nil =>
    intro s ho hq
    rw [ingested_of_evq_nil hq, List.length_nil, Nat.zero_add]
    rfl
  | cons r q ih =>
    intro s ho hq
    have hpopped : (s.setEvq q).Opened := ho
    have hstep := step_drain ho hq frames (List.replicate q.length .engine ++ rest)
    rw [List.length_cons, Nat.add_right_comm, ingested_of_evq_cons hq,
      ← ih (hpopped.applyEvent s.tick (decodeEvent r)) (State.applyEvent_evq _ _ _)]
    exact run_succ_of_next hstep _

/-! ### The frames in micro-steps -/

/-- The sequencer when frame `k` of `frames` is next, or when none is left. -/
def seqAtFrame (k frames : Nat) : Seq := if k < frames then .rendering k frames else .ready

theorem seqAfterFrame_eq (k frames : Nat) : seqAfterFrame k frames = seqAtFrame (k + 1) frames := rfl

theorem seqAfterDrain_eq (frames : Nat) : seqAfterDrain frames = seqAtFrame 0 frames := by
  cases frames <;> rfl

theorem step_frame_next {s u : State} {k frames : Nat} (ho : s.Opened) (hk : k < frames) (h : s.rendered k = .next u)
    (moves : List Move) :
    step (s.setTurn (seqAtFrame k frames) (.engine :: moves)) = .next (u.setTurn (seqAtFrame (k + 1) frames) moves) := by
  have hopened : (s.setTurn (seqAtFrame k frames) moves).Opened := ho
  have hframe := (exec_frame_of_opened hopened k).trans (rendered_setTurn_next h _ moves)
  rw [← seqAfterFrame_eq]
  exact (step_engine (.inl rfl)).trans (engineStep_frame (if_pos hk) hframe)

theorem step_frame_fault {s : State} {k frames : Nat} (ho : s.Opened) (hk : k < frames)
    (h : s.rendered k = .fault .tickOverflow) (moves : List Move) :
    step (s.setTurn (seqAtFrame k frames) (.engine :: moves)) = .fault .tickOverflow := by
  have hopened : (s.setTurn (seqAtFrame k frames) moves).Opened := ho
  have hframe := (exec_frame_of_opened hopened k).trans (rendered_setTurn_fault h _ moves)
  exact (step_engine (.inl rfl)).trans (engineStep_frame_fault (if_pos hk) hframe)

/-- One turn for each frame is the whole run of frames, up to the first overflow. -/
theorem run_frames (frames : Nat) (rest : List Move) (count : Nat) : ∀ {k : Nat} {s : State}, s.Opened →
    k + count = frames →
    core.run count (s.setTurn (seqAtFrame k frames) (List.replicate count .engine ++ rest))
      = renderFrames count k (s.setTurn .ready rest) := by
  induction count with
  | zero =>
    intro k s ho hk
    have hlast : seqAtFrame k frames = .ready := if_neg (by omega)
    rw [hlast]
    rfl
  | succ count ih =>
    intro k s ho hk
    rcases rendered_cases s k with ⟨-, hnext⟩ | ⟨-, hfault⟩
    · rw [renderFrames_succ_of_next (rendered_setTurn_next hnext .ready rest), ← ih ?_ (by omega)]
      · exact run_succ_of_next (step_frame_next ho (by omega) hnext _) count
      · exact ho
    · rw [renderFrames_succ_of_fault (rendered_setTurn_fault hfault .ready rest)]
      exact run_succ_of_fault (step_frame_fault ho (by omega) hfault _) count

/-! ### The whole FILL -/

/-- The engine's turn after the last record: EVQ is empty, and the first frame is next, if there is one. -/
theorem step_drained {s : State} (hq : s.evq = []) (frames : Nat) (moves : List Move) :
    step (s.setTurn (.ingesting frames) (.engine :: moves)) = .next (s.setTurn (seqAtFrame 0 frames) moves) := by
  rw [← seqAfterDrain_eq]
  exact (step_engine (.inl rfl)).trans (engineStep_drained rfl hq)

/-- The ingestion keeps a Ready sequencer and the script. -/
theorem ingested_setTurn_self {s : State} (hr : s.IsReady) : s.ingested.setTurn .ready s.script = s.ingested := by
  rw [ingested_eq, ← hr]
  rfl

/-- The turns of a FILL after its request: the drain, the queue found empty, and the frames. -/
theorem run_fill {s : State} (ho : s.Opened) (frames : Nat) (rest : List Move) :
    core.run (s.evq.length + 1 + frames)
        (s.setTurn (.ingesting frames) (List.replicate (s.evq.length + 1 + frames) .engine ++ rest))
      = renderFrames frames 0 (s.ingested.setTurn .ready rest) := by
  have hend := step_drained s.ingested_evq frames (List.replicate frames .engine ++ rest)
  rw [Nat.add_assoc, List.replicate_add, List.append_assoc, run_drain frames (1 + frames) _ s.evq ho rfl,
    Nat.add_comm 1, ← run_frames frames rest frames ho.ingested (Nat.zero_add frames)]
  exact run_succ_of_next hend frames

/-- Settles O8: the request empties OUT, and the turns after it are the ingestion and the frames of the whole FILL. -/
theorem microStepsMakeTheWholeFill : Obligations.MicroStepsMakeTheWholeFill := by
  intro s frames rest ho hr hscript
  have hopened : ({ s with script := rest } : State).Opened := ho
  have hready : ({ s with script := rest } : State).IsReady := hr
  have hturns := run_fill (s := ({ s with script := rest } : State).setOut []) ho frames rest
  rw [ingested_setOut] at hturns
  have hlength : s.evq.length + frames + 2 = s.evq.length + 1 + frames + 1 := by omega
  rw [exec_fill_of_ready hopened hready, ← ingested_setTurn_self hready, hlength]
  exact (run_succ_of_next (step_request ho hr hscript) _).trans hturns

end Sys2Proof.Machine
end

section
/-! SUPPORT. The condition report (60 R173): every operation but OPEN carries its entries along, unread. -/

namespace Sys2Proof.Machine

/-! ### Entries that stood in the report before (60 R173) -/

/-- `s` with the report `r`. -/
def State.setReport (s : State) (r : List ReportEntry) : State := { s with report := r }

/-- `s` with older entries before those of its report. -/
def State.prependReport (s : State) (old : List ReportEntry) : State := s.setReport (old ++ s.report)

/-- Any report is one put before the empty report: so what holds for older entries holds for another report. -/
theorem setReport_eq_prependReport (s : State) (r : List ReportEntry) :
    s.setReport r = (s.setReport []).prependReport r := by
  show s.setReport r = s.setReport (r ++ [])
  rw [List.append_nil]

/-- The one rule that writes the report appends at its end, so older entries stay where they are. -/
theorem unseen_prependReport (old : List ReportEntry) : Unseen fun s => s.prependReport old where
  note _ _ := rfl
  cfg _ := rfl
  setNote _ _ _ := rfl
  raise s c i t := congrArg s.setReport (List.append_assoc old s.report [⟨c, i, t⟩])

theorem deactivateAt_prependReport (s : State) (old : List ReportEntry) (i : Byte) :
    (s.prependReport old).deactivateAt i = (s.deactivateAt i).prependReport old := by
  unfold State.deactivateAt
  cases noteIndex? i with
  | none => exact (unseen_prependReport old).raise s _ i s.tick
  | some ix => exact (unseen_prependReport old).deactivateNote_comm s ix

theorem drain_prependReport (t : Nat) (old : List ReportEntry) (q : List Record) :
    ∀ s : State, drain t q (s.prependReport old) = (drain t q s).prependReport old := by
  induction q with
  | nil => exact fun _ => rfl
  | cons r q ih =>
    intro s
    rw [drain, drain, ← ih, ← (unseen_prependReport old).applyEvent_comm]
    rfl

theorem ingested_prependReport (s : State) (old : List ReportEntry) :
    (s.prependReport old).ingested = s.ingested.prependReport old :=
  drain_prependReport s.tick old s.evq s

/-! ### The answer of an operation with older entries in the report -/

/-- The answer with older entries before those of the report of its next state, if it has one. -/
def prependToNext (old : List ReportEntry) : Answer → Answer
  | .next u => .next (u.prependReport old)
  | .fault f => .fault f
  | .refused r => .refused r

theorem prependToNext_eq_next_iff {old : List ReportEntry} {a : Answer} {w : State} :
    prependToNext old a = .next w ↔ ∃ u, a = .next u ∧ u.prependReport old = w := by
  cases a <;> simp [prependToNext]

theorem onEngine_prependReport (s : State) (old : List ReportEntry) (a : Answer) :
    (s.prependReport old).onEngine (prependToNext old a) = prependToNext old (s.onEngine a) := by
  show s.onEngine _ = _
  unfold State.onEngine
  split_ifs <;> rfl

/-- A guarded operation that turns `s` into `u` and carries older entries along does so under the guard. -/
theorem onEngine_next_prependReport {s u w : State} {old : List ReportEntry} (h : w = u.prependReport old) :
    (s.prependReport old).onEngine (.next w) = prependToNext old (s.onEngine (.next u)) := by
  rw [h]
  exact onEngine_prependReport s old (.next u)

theorem envAt_prependReport (s : State) (old : List ReportEntry) (i : NoteIx) (t : Nat) :
    (s.prependReport old).envAt i t = ((s.envAt i t).1, (s.envAt i t).2.prependReport old) :=
  (unseen_prependReport old).envAt_comm s i t

theorem writeFrame_prependReport (s : State) (old : List ReportEntry) (k : Nat) (v : ExactNum) :
    (s.prependReport old).writeFrame k v = (s.writeFrame k v).prependReport old :=
  List.foldl_hom (State.prependReport · old) (g₁ := fun u ch => u.outWrite k v ch) (fun _ _ => rfl)

theorem advanceTick_prependReport (s : State) (old : List ReportEntry) :
    (s.prependReport old).advanceTick = prependToNext old s.advanceTick := by
  rcases advanceTick_cases s with ⟨hfits, hnext⟩ | ⟨hfull, hfault⟩
  · rw [hnext]
    exact if_pos hfits
  · rw [hfault]
    exact if_neg (Bool.eq_false_iff.1 hfull)

theorem rendered_prependReport (s : State) (old : List ReportEntry) (k : Nat) :
    (s.prependReport old).rendered k = prependToNext old (s.rendered k) := by
  have hmix : (s.prependReport old).mixed s.tick = Prod.map id (State.prependReport · old) (s.mixed s.tick) :=
    (unseen_prependReport old).mixed_comm s s.tick
  show (((s.prependReport old).mixed s.tick).2.writeFrame k ((s.prependReport old).mixed s.tick).1).advanceTick = _
  rw [hmix, Prod.map_snd, Prod.map_fst, writeFrame_prependReport]
  exact advanceTick_prependReport _ old

theorem renderFrames_prependReport (old : List ReportEntry) (count : Nat) : ∀ (k : Nat) (s : State),
    renderFrames count k (s.prependReport old) = prependToNext old (renderFrames count k s) := by
  induction count with
  | zero => exact fun _ _ => rfl
  | succ count ih =>
    intro k s
    have hframe := rendered_prependReport s old k
    rcases rendered_cases s k with ⟨-, hnext⟩ | ⟨-, hfault⟩
    · rw [hnext] at hframe
      rw [renderFrames_succ_of_next hframe, renderFrames_succ_of_next hnext]
      exact ih (k + 1) _
    · rw [hfault] at hframe
      rw [renderFrames_succ_of_fault hframe, renderFrames_succ_of_fault hfault]
      rfl

theorem execPush_prependReport (s : State) (old : List ReportEntry) (r : Record) :
    execPush r (s.prependReport old) = prependToNext old (execPush r s) := by
  show (if s.evqHasRoom then _ else _) = _
  unfold execPush
  split_ifs <;> rfl

theorem execCloseStream_prependReport (s : State) (old : List ReportEntry) :
    execCloseStream (s.prependReport old) = prependToNext old (execCloseStream s) := by
  show (if s.stream = .absent then _ else if s.seq = .ready then _ else _) = _
  unfold execCloseStream
  split_ifs <;> rfl

theorem execFill_prependReport (s : State) (old : List ReportEntry) (frames : Nat) :
    execFill frames (s.prependReport old) = prependToNext old (execFill frames s) := by
  have hseq : (s.prependReport old).seq = s.seq := rfl
  unfold execFill
  rw [← onEngine_prependReport, ingested_prependReport, hseq]
  split_ifs
  · exact congrArg _ (renderFrames_prependReport old frames 0 (s.ingested.setOut []))
  · rfl

/-- Every operation but OPEN carries older entries of the report along, unread. -/
theorem exec_prependReport {i : Instr} (hi : ∀ a : OpenArgs, i ≠ .openStream a) (s : State) (old : List ReportEntry) :
    exec i (s.prependReport old) = prependToNext old (exec i s) := by
  have hf := unseen_prependReport old
  cases i with
  | noteOn n v => exact onEngine_next_prependReport (hf.pressAt_comm s n s.tick)
  | noteOff n v => exact onEngine_next_prependReport (hf.releaseAt_comm s n s.tick)
  | press i t => exact onEngine_next_prependReport (hf.pressAt_comm s i t)
  | release i t => exact onEngine_next_prependReport (hf.releaseAt_comm s i t)
  | deactivate i => exact onEngine_next_prependReport (deactivateAt_prependReport s old i)
  | env i t => exact onEngine_next_prependReport (by rw [envAt_prependReport]; rfl)
  | ingest => exact onEngine_next_prependReport (ingested_prependReport s old)
  | evOther | ads | freq | osc => exact onEngine_next_prependReport rfl
  | sine | triangle | square | sawtooth => rfl
  | openStream a => exact absurd rfl (hi a)
  | push r => exact execPush_prependReport s old r
  | closeStream => exact execCloseStream_prependReport s old
  | fill frames => exact execFill_prependReport s old frames
  | frame k =>
    show (s.prependReport old).onEngine _ = _
    rw [rendered_prependReport]
    exact onEngine_prependReport s old (s.rendered k)

/-- Settles O54: the entries added are those that the operation makes from an empty report; OPEN empties the report. -/
theorem reportIsNeverRead : Obligations.ReportIsNeverRead := by
  refine ⟨fun i s u r hi h => ?_, fun a s r => rfl⟩
  have hany : ∀ r, exec i (s.setReport r) = prependToNext r (exec i (s.setReport [])) := fun r => by
    rw [setReport_eq_prependReport, exec_prependReport hi]
  obtain ⟨w, hw, rfl⟩ := prependToNext_eq_next_iff.1 ((hany s.report).symm.trans h)
  exact ⟨w.report, rfl, (hany r).trans (prependToNext_eq_next_iff.2 ⟨w, hw, rfl⟩)⟩

end Sys2Proof.Machine
end

section
/-! SUPPORT. Offending records (60 R179): the queue without them drains to the same state, apart from the report. -/

namespace Sys2Proof.Machine

/-- The report entry of an offending record drained at time `t` (60 R174). -/
def offenceEntry (t : Nat) (r : Record) : ReportEntry := ⟨.invalidNoteIndex, r.noteIndex, t⟩

/-- The records of a queue that do not offend, in order. -/
def inoffensive (q : List Record) : List Record := q.filter fun r => !r.offends

theorem filter_offends_inoffensive (q : List Record) : (inoffensive q).filter Record.offends = [] := by
  simp [inoffensive, List.filter_filter]

theorem offends_iff (r : Record) :
    r.offends = true ↔ (r.status = Config.stNoteOn ∨ r.status = Config.stNoteOff) ∧ 128 ≤ r.noteIndex.toNat := by
  simp [Record.offends, Config.stNoteOn, Config.stNoteOff]

/-! ### The event of one record -/

theorem decodeEvent_of_recognised {r : Record} (h : r.status = Config.stNoteOn ∨ r.status = Config.stNoteOff) :
    decodeEvent r = .noteOn r.noteIndex r.velocity ∨ decodeEvent r = .noteOff r.noteIndex r.velocity := by
  unfold decodeEvent
  split_ifs with hon hoff
  · exact .inl rfl
  · exact .inr rfl
  · exact absurd h (not_or.2 ⟨hon, hoff⟩)

theorem applyEvent_of_offends {r : Record} (h : r.offends = true) (s : State) (t : Nat) :
    s.applyEvent t (decodeEvent r) = s.raise .invalidNoteIndex r.noteIndex t := by
  obtain ⟨hstatus, hindex⟩ := (offends_iff r).1 h
  rcases decodeEvent_of_recognised hstatus with he | he <;> rw [he]
  · exact pressAt_of_outside hindex s t
  · exact releaseAt_of_outside hindex s t

/-- A record that does not offend is ignored, or names a note: it raises nothing. -/
theorem report_applyEvent_of_not_offends {r : Record} (h : ¬ r.offends = true) (s : State) (t : Nat) :
    (s.applyEvent t (decodeEvent r)).report = s.report := by
  rw [offends_iff, not_and] at h
  unfold decodeEvent
  split_ifs with hon hoff
  · rcases pressAt_cases s r.noteIndex t with ⟨hindex, -⟩ | ⟨ix, -, hpress⟩
    · exact absurd hindex (h (.inl hon))
    · show (s.pressAt r.noteIndex t).report = _
      rw [hpress, State.setNote_report]
  · rcases releaseAt_cases s r.noteIndex t with ⟨hindex, -⟩ | ⟨ix, -, hrelease⟩
    · exact absurd hindex (h (.inr hoff))
    · show (s.releaseAt r.noteIndex t).report = _
      rw [hrelease, State.setNote_report]
  · rfl

/-! ### The drain of a queue without its offending records -/

/-- The drain is the event of the oldest record, and then the drain of the rest: what EVQ holds meanwhile is not read. -/
theorem drain_cons (t : Nat) (r : Record) (q : List Record) (s : State) :
    drain t (r :: q) s = drain t q (s.applyEvent t (decodeEvent r)) :=
  calc drain t (r :: q) s = drain t q ((s.setEvq q).applyEvent t (decodeEvent r)) := rfl
    _ = drain t q (s.applyEvent t (decodeEvent r)) := by rw [(unseen_setEvq q).applyEvent_comm, drain_setEvq]

/-- The report before a drain shows in nothing but the report after it. -/
theorem setReport_drain_setReport (t : Nat) (q : List Record) (s : State) (before after : List ReportEntry) :
    (drain t q (s.setReport before)).setReport after = (drain t q s).setReport after := by
  have hany : ∀ r, (drain t q (s.setReport r)).setReport after = (drain t q (s.setReport [])).setReport after :=
    fun r => by
      rw [setReport_eq_prependReport s r, drain_prependReport]
      rfl
  exact (hany before).trans (hany s.report).symm

/-- An offending record does nothing in a drain but append its entry; any other record does the same in both drains. -/
theorem drain_eq_setReport_drain_inoffensive (t : Nat) (q : List Record) : ∀ s : State,
    drain t q s = (drain t (inoffensive q) s).setReport (s.report ++ (q.filter Record.offends).map (offenceEntry t)) := by
  induction q with
  | nil =>
    intro s
    exact congrArg (State.setReport { s with evq := [] }) (List.append_nil s.report).symm
  | cons r q ih =>
    intro s
    rw [drain_cons, ih]
    by_cases hr : r.offends = true
    · have hkept : inoffensive (r :: q) = inoffensive q := List.filter_cons_of_neg (by simp [hr])
      rw [hkept, List.filter_cons_of_pos hr, List.map_cons, applyEvent_of_offends hr, State.raise_report,
        List.append_assoc]
      exact setReport_drain_setReport t _ s _ _
    · have hkept : inoffensive (r :: q) = r :: inoffensive q := List.filter_cons_of_pos (by simp [hr])
      rw [hkept, List.filter_cons_of_neg hr, drain_cons, report_applyEvent_of_not_offends hr]

theorem report_drain (t : Nat) (q : List Record) (s : State) :
    (drain t q s).report = s.report ++ (q.filter Record.offends).map (offenceEntry t) :=
  congrArg State.report (drain_eq_setReport_drain_inoffensive t q s)

/-- The drain of the queue without its offending records adds no entry. -/
theorem report_drain_inoffensive (t : Nat) (q : List Record) (s : State) :
    (drain t (inoffensive q) s).report = s.report := by
  rw [report_drain, filter_offends_inoffensive, List.map_nil, List.append_nil]

/-- Settles O17: both ingestions are drains at the same `tick`, which agree apart from the report. -/
theorem offendingRecordsLeaveOnlyTheReport : Obligations.OffendingRecordsLeaveOnlyTheReport := by
  intro s ho
  have hfiltered : (s.setEvq (inoffensive s.evq)).ingested = drain s.tick (inoffensive s.evq) s :=
    drain_setEvq s.tick _ _ s
  have hopened : (s.setEvq (inoffensive s.evq)).Opened := ho
  exact ⟨s.ingested, drain s.tick (inoffensive s.evq) s, exec_ingest_of_opened ho,
    (exec_ingest_of_opened hopened).trans (congrArg _ hfiltered), report_drain_inoffensive s.tick s.evq s,
    drain_eq_setReport_drain_inoffensive s.tick s.evq s⟩

end Sys2Proof.Machine
end

section
/-! SUPPORT. Faults (60 R183): the one fault of FRAME, and that no other operation but FILL reaches it. -/

namespace Sys2Proof.Machine

/-! ### Operations that never fault -/

/-- A guarded operation that hands over a next state does not fault. -/
theorem onEngine_next_ne_fault (s u : State) (f : Fault) : s.onEngine (.next u) ≠ .fault f := fun h =>
  nomatch (onEngine_fault_iff.1 h).2

theorem execOpenStream_ne_fault (a : OpenArgs) (s : State) (f : Fault) : execOpenStream a s ≠ .fault f := by
  unfold execOpenStream
  split_ifs <;> nofun

theorem execPush_ne_fault (r : Record) (s : State) (f : Fault) : execPush r s ≠ .fault f := by
  unfold execPush
  split_ifs <;> nofun

theorem execCloseStream_ne_fault (s : State) (f : Fault) : execCloseStream s ≠ .fault f := by
  unfold execCloseStream
  split_ifs <;> nofun

/-! ### The overflow of `tick` (45 R155) -/

theorem rendered_fault {s : State} {k : Nat} {f : Fault} (h : s.rendered k = .fault f) :
    ∃ w : Nat, s.impl.tickW = some w := by
  cases f
  obtain ⟨w, hw, -⟩ := (tickFits_eq_false_iff s _).1 ((rendered_eq_fault_iff s k).1 h)
  exact ⟨w, hw⟩

/-- The fault of a run of frames is that of one of them, and TICK_W is the same in all. -/
theorem renderFrames_fault {f : Fault} (count : Nat) : ∀ {k : Nat} {s : State}, renderFrames count k s = .fault f →
    ∃ w : Nat, s.impl.tickW = some w := by
  induction count with
  | zero => exact fun h => nomatch h
  | succ count ih =>
    intro k s h
    rcases rendered_cases s k with ⟨-, hnext⟩ | ⟨-, hfault⟩
    · rw [renderFrames_succ_of_next hnext] at h
      obtain ⟨w, hw⟩ := ih h
      exact ⟨w, hw⟩
    · exact rendered_fault hfault

theorem execFill_fault {s : State} {frames : Nat} {f : Fault} (h : execFill frames s = .fault f) :
    ∃ w : Nat, s.impl.tickW = some w := by
  have hrun := (onEngine_fault_iff.1 h).2
  split_ifs at hrun
  obtain ⟨w, hw⟩ := renderFrames_fault frames hrun
  exact ⟨w, s.ingested_impl ▸ hw⟩

/-- Settles O56: the frames of FRAME and FILL overflow only under a bound; no other operation answers a fault. -/
theorem onlyTickOverflowFaults : Obligations.OnlyTickOverflowFaults := by
  intro i s f h
  refine ⟨by cases f; rfl, ?_⟩
  cases i with
  | frame k => exact ⟨rendered_fault (onEngine_fault_iff.1 h).2, .inl ⟨k, rfl⟩⟩
  | fill frames => exact ⟨execFill_fault h, .inr ⟨frames, rfl⟩⟩
  | openStream a => exact absurd h (execOpenStream_ne_fault a s f)
  | push r => exact absurd h (execPush_ne_fault r s f)
  | closeStream => exact absurd h (execCloseStream_ne_fault s f)
  | sine | triangle | square | sawtooth => exact nomatch h
  | _ => exact absurd h (onEngine_next_ne_fault s _ f)

end Sys2Proof.Machine
end

section
/-! SUPPORT. Reset and the hazards of the host's moves (70_reset_and_hazards.md): what OPEN and CLOSE leave, the causes of a refusal, and a note-on and its note-off in one batch. -/

namespace Sys2Proof.Machine

/-! ### OPEN (70 R200, 10 R35) -/

/-- The configuration of an OPEN with the document's defaults written out. -/
theorem openArgs_cfg_values (a : OpenArgs) :
    a.cfg = ⟨a.attack.getD (.rat (4 / 5)), a.decay.getD (.rat 5), a.sustain.getD (.rat 0),
      a.release.getD (.rat (1 / 5)), a.referenceFrequency.getD (.rat 440), a.masterVolume.getD (.rat (1 / 10)),
      a.wave.getD .triangle, a.rate, a.channels⟩ := by
  simp [OpenArgs.cfg, Config.attack, Config.decay, Config.sustain, Config.release, Config.referenceFrequency,
    Config.masterVolume, Config.wave, Rat.mkRat_eq_div]

/-- Settles O45: OPEN creates the Synth State of its configuration, whose defaults `openArgs_cfg_values` writes out. -/
theorem openResult : Obligations.OpenResult := by
  intro s a habsent hready hlegal
  rw [exec_openStream_of_absent habsent hready, if_pos hlegal, openArgs_cfg_values]
  rfl

/-! ### CLOSE (70 R202) -/

theorem onEngine_of_absent {s : State} (h : s.stream = .absent) (a : Answer) : s.onEngine a = .refused .noStream :=
  if_pos h

theorem exec_closeStream_of_absent {s : State} (h : s.stream = .absent) :
    exec .closeStream s = .refused .noStream :=
  if_pos h

/-- What CLOSE leaves: no stream, no record queued, a fresh channel (log 14). -/
def State.ended (s : State) : State := { s with stream := .absent, evq := [], chan := .connected }

@[simp] theorem State.ended_stream (s : State) : s.ended.stream = .absent := rfl

theorem exec_closeStream_of_ready {s : State} (hopened : s.stream = .opened) (hready : s.IsReady) :
    exec .closeStream s = .next s.ended :=
  (if_neg (by simp [hopened])).trans (if_pos hready)

/-- Settles O48: CLOSE leaves no Synth State, and the guard of every operation on one then refuses. -/
theorem closeResult : Obligations.CloseResult := by
  intro s hopened hready
  refine ⟨s.ended, exec_closeStream_of_ready hopened hready, rfl, ?_⟩
  -- only the missing stream matters from here: of the concrete state Lean would evaluate the guard before matching it
  have habsent := s.ended_stream
  generalize s.ended = u at habsent ⊢
  refine ⟨fun _ => onEngine_of_absent habsent _, fun i => ?_⟩
  cases i with
  | openStream | push | sine | triangle | square | sawtooth => trivial
  | closeStream => exact exec_closeStream_of_absent habsent
  | _ => exact onEngine_of_absent habsent _

/-! ### A FILL in progress (70 R213) -/

/-- Settles O49: FILL and its request reach the test of the sequencer behind the guard, OPEN makes it first, and CLOSE
makes it where a stream is open. -/
theorem fillIsNotReentrant : Obligations.FillIsNotReentrant := by
  intro s frames a ho hbusy
  have hpresent : s.stream ≠ .absent := by simp [ho.1]
  exact ⟨(onEngine_of_opened ho _).trans (if_neg hbusy), (onEngine_of_opened ho _).trans (if_neg hbusy),
    if_pos hbusy, (if_neg hpresent).trans (if_neg hbusy)⟩

/-! ### The causes of a refusal (70 R221) -/

/-- Why an operation is refused from the state `s`, and the name it is refused under. -/
inductive RefusalCause (s : State) : Instr → Refusal → Prop
  | noStream (i : Instr) (habsent : s.stream = .absent) : RefusalCause s i .noStream
  | illegalState (i : Instr) (hillegal : s.cfg.legal = false) : RefusalCause s i .illegalConfig
  | illegalArgs (a : OpenArgs) (hillegal : a.cfg.legal = false) : RefusalCause s (.openStream a) .illegalConfig
  | fillInProgress (i : Instr) (hbusy : s.seq ≠ .ready) : RefusalCause s i .fillInProgress
  | streamOpen (a : OpenArgs) (hopened : s.stream = .opened) : RefusalCause s (.openStream a) .streamOpen

/-- A guarded operation is refused for want of a legal Synth State, or by its own answer. -/
theorem refusalCause_of_guarded {s : State} {i : Instr} {a : Answer} {r : Refusal}
    (hanswer : a = .refused r → RefusalCause s i r) (h : s.onEngine a = .refused r) : RefusalCause s i r := by
  unfold State.onEngine at h
  split_ifs at h with habsent hlegal
  · cases h
    exact .noStream i habsent
  · exact hanswer h
  · cases h
    exact .illegalState i (Bool.eq_false_iff.2 hlegal)

theorem refusalCause_of_guarded_next {s w : State} {i : Instr} {r : Refusal} (h : s.onEngine (.next w) = .refused r) :
    RefusalCause s i r :=
  refusalCause_of_guarded (fun hanswer : Host.Outcome.next w = .refused r => nomatch hanswer) h

theorem rendered_ne_refused (s : State) (k : Nat) (r : Refusal) : s.rendered k ≠ .refused r := by
  rcases rendered_cases s k with ⟨-, hnext⟩ | ⟨-, hfault⟩
  · simp [hnext]
  · simp [hfault]

theorem renderFrames_ne_refused (r : Refusal) (count : Nat) : ∀ (k : Nat) (s : State),
    renderFrames count k s ≠ .refused r := by
  induction count with
  | zero => exact fun _ _ => nofun
  | succ count ih =>
    intro k s
    rcases rendered_cases s k with ⟨-, hnext⟩ | ⟨-, hfault⟩
    · rw [renderFrames_succ_of_next hnext]
      exact ih (k + 1) _
    · simp [renderFrames_succ_of_fault hfault]

theorem refusalCause_openStream {s : State} {a : OpenArgs} {r : Refusal} (h : execOpenStream a s = .refused r) :
    RefusalCause s (.openStream a) r := by
  unfold execOpenStream at h
  split_ifs at h with hbusy hopened hlegal <;> cases h
  · exact .fillInProgress _ hbusy
  · exact .streamOpen a hopened
  · exact .illegalArgs a (Bool.eq_false_iff.2 hlegal)

theorem execPush_ne_refused (p : Record) (s : State) (r : Refusal) : execPush p s ≠ .refused r := by
  unfold execPush
  split_ifs <;> nofun

theorem refusalCause_closeStream {s : State} {r : Refusal} (h : execCloseStream s = .refused r) :
    RefusalCause s .closeStream r := by
  unfold execCloseStream at h
  split_ifs at h with habsent hready <;> cases h
  · exact .noStream _ habsent
  · exact .fillInProgress _ hready

theorem refusalCause_fill {s : State} {frames : Nat} {r : Refusal} (h : execFill frames s = .refused r) :
    RefusalCause s (.fill frames) r := by
  refine refusalCause_of_guarded (fun hanswer => ?_) h
  split_ifs at hanswer with hready
  · exact absurd hanswer (renderFrames_ne_refused r frames 0 _)
  · cases hanswer
    exact .fillInProgress _ hready

/-- Every refusal has one of the listed causes: beside the guard, only OPEN, CLOSE and FILL refuse anything. -/
theorem refusalCause_of_exec {i : Instr} {s : State} {r : Refusal} (h : exec i s = .refused r) :
    RefusalCause s i r := by
  cases i with
  | openStream a => exact refusalCause_openStream h
  | push p => exact absurd h (execPush_ne_refused p s r)
  | closeStream => exact refusalCause_closeStream h
  | fill frames => exact refusalCause_fill h
  | frame k => exact refusalCause_of_guarded (fun hanswer => absurd hanswer (rendered_ne_refused s k r)) h
  | sine | triangle | square | sawtooth => exact nomatch h
  | _ => exact refusalCause_of_guarded_next h

/-- Settles O57: the causes of `RefusalCause`, one clause each, the two of `illegalConfig` in one. -/
theorem refusalsAreTheListedMoves : Obligations.RefusalsAreTheListedMoves := by
  intro i s r h
  cases refusalCause_of_exec h with
  | noStream _ habsent => exact .inl ⟨rfl, habsent⟩
  | illegalState _ hillegal => exact .inr (.inl ⟨rfl, .inl hillegal⟩)
  | illegalArgs a hillegal => exact .inr (.inl ⟨rfl, .inr ⟨a, rfl, hillegal⟩⟩)
  | fillInProgress _ hbusy => exact .inr (.inr (.inl ⟨rfl, hbusy⟩))
  | streamOpen a hopened => exact .inr (.inr (.inr ⟨rfl, hopened, a, rfl⟩))

/-! ### A note-on and its note-off in one batch (70 R212) -/

@[simp] theorem State.setEvq_tick (s : State) (q : List Record) : (s.setEvq q).tick = s.tick := rfl
@[simp] theorem note_setEvq (s : State) (q : List Record) (i : NoteIx) : (s.setEvq q).note i = s.note i := rfl

theorem applyEvent_noteOn_of_index {i : Byte} {ix : NoteIx} (hix : ix.val = i.toNat) (s : State) (t : Nat) (v : Byte) :
    s.applyEvent t (decodeEvent ⟨Config.stNoteOn, i, v⟩) = s.setNote ix ((s.note ix).press t) :=
  pressAt_of_index hix s t

theorem applyEvent_noteOff_of_index {i : Byte} {ix : NoteIx} (hix : ix.val = i.toNat) (s : State) (t : Nat) (v : Byte) :
    s.applyEvent t (decodeEvent ⟨Config.stNoteOff, i, v⟩) = s.setNote ix ((s.note ix).release t) :=
  releaseAt_of_index hix s t

/-- The two records of a batch are applied at one `tick`, so both timestamps are that `tick`. -/
theorem note_ingested_on_off {s : State} {i : Byte} {ix : NoteIx} {v v' : Byte} (hix : ix.val = i.toNat)
    (hn : (s.note ix).pressed = false)
    (hq : s.evq = [⟨Config.stNoteOn, i, v⟩, ⟨Config.stNoteOff, i, v'⟩]) :
    s.ingested.note ix = ⟨false, true, s.tick, s.tick⟩ := by
  rw [ingested_of_evq_cons hq, applyEvent_noteOn_of_index hix, ingested_of_evq_cons rfl,
    applyEvent_noteOff_of_index hix, ingested_of_evq_nil rfl, note_setNote_same]
  simp [Note.press_of_not_pressed hn, Note.release]

/-- At the `tick` of its press the curve of 41 R111, and with it the release tail, is at 0. -/
theorem releaseValue_at_press {c : Cfg} (hc : c.legal = true) (n : Note) :
    (releaseValue c n n.tickPressed).toReal = 0 := by
  obtain ⟨hattack, -⟩ := (legal_iff c).1 hc
  have hlife : secondsReal c n.tickPressed n.tickPressed = 0 := by rw [secondsReal, sub_self, zero_div]
  rw [toReal_releaseValue, hlife, adsReal_of_le_attack hattack.le, zero_div, mul_zero]

/-- Settles O35: the batch leaves the note released at the `tick` of its press, where its tail is at 0, below the floor. -/
theorem onAndOffInOneBatchAreSilent : Obligations.OnAndOffInOneBatchAreSilent := by
  intro s u i ix v v' k ho hix hn hu
  obtain ⟨hnote, hlegal⟩ : u.note ix = ⟨false, true, u.tick, u.tick⟩ ∧ u.cfg.legal = true := by
    cases completed_of_exec hu with
    | ingest _ =>
      rw [State.ingested_tick, State.ingested_cfg]
      exact ⟨note_ingested_on_off hix hn rfl, ho.2⟩
  have hreleased : (u.note ix).pressed = false := by rw [hnote]
  have hsilent : (releaseValue u.cfg (u.note ix) u.tick).toReal ≤ Config.floor := by
    rw [hnote, releaseValue_at_press hlegal]
    exact cast_floor_nonneg
  refine ⟨?_, fun w hw => ?_⟩
  · rw [← toReal_envValue, envValue_of_le_floor hreleased hsilent, Scalar.toReal_rat, Rat.cast_zero]
  · cases completed_of_exec hw with
    | frame _ _ hrun =>
      rw [note_rendered hrun]
      exact noteAfterScan_inactive_of_le_floor hreleased hsilent

end Sys2Proof.Machine
end
